-- ==== Sys2Proof/Word.lean ====
section
/-! DEFINITION. The two word types of the engine and the frame as a byte list. -/

namespace Sys2Proof

/-- `u8`: an unsigned 8-bit value (00_scope.md section 6.1). -/
abbrev Byte := BitVec 8

/-- `u16`: an unsigned 16-bit value; one cell of the Register Store, one field of a frame (00_scope.md section 6.1). -/
abbrev Word := BitVec 16

/-- A frame: "a bounded byte sequence", first byte on the wire first (00_scope.md section 6.1 and glossary). -/
abbrev Frame := List Byte

end Sys2Proof
end

