-- ==== Sys2Proof/Config.lean ====
section
/-! DEFINITION. The implementation parameters R1 to R6 and PORTB_GRANULARITY, as one plain record. -/

namespace Sys2Proof

/-- One entry of `BLOCK_TABLE` (R4): `start` and `length` count cells; `label` takes no part in any check (R154). -/
structure Block where
  start  : Nat
  length : Nat
  label  : String
  deriving DecidableEq, Repr

/-- `PORTB_GRANULARITY` (R52): where the operations of the second agent may fall. -/
inductive Granularity where
  | betweenCells   -- before the first, between any two, after the last cell access of a request
  | betweenEvents  -- only between engine events
  deriving DecidableEq, Repr

/-- The configuration of one engine instance. No event changes it (R19). -/
structure Config where
  /-- `SLAVE_ADDR` (R1). -/
  slaveAddr   : Byte
  /-- `BUF_CAP` (R2). -/
  bufCap      : Nat
  /-- `BLOCK_TABLE` (R4). -/
  blocks      : List Block
  /-- `STORE_INIT` (R5). -/
  storeInit   : Vector Word 64
  /-- `CTR_WIDTH` (R6). -/
  ctrWidth    : Nat
  /-- `PORTB_GRANULARITY` (R52). -/
  granularity : Granularity
  deriving DecidableEq, Repr

/-- The reference configuration, the fixture of 95_test_vectors.md (R1, R2, R4, R5, R6, R52).
DESIGN CHOICE, unsafe (log 1): the source fixes none of these values. -/
def Config.reference : Config where
  slaveAddr   := 0x01#8
  bufCap      := 256
  blocks      := [⟨0, 16, "M1"⟩, ⟨16, 16, "M2"⟩, ⟨32, 16, "SYS"⟩]
  storeInit   := Vector.replicate 64 0x0000#16
  ctrWidth    := 32
  granularity := .betweenCells

end Sys2Proof
end

