-- ==== Sys2Proof/Machine/Blocks.lean ====
section
/-! DEFINITION. The block table: its well-formedness and the block-range validator. -/

namespace Sys2Proof

/-- The cells of `b` lie inside the store and there is at least one (R4 a, b). -/
def Block.inStore (b : Block) : Bool := decide (1 ≤ b.length) && decide (b.start + b.length ≤ 64)

/-- Two blocks share no cell (R4 c). -/
def Block.disjoint (p q : Block) : Bool :=
  decide (p.start + p.length ≤ q.start) || decide (q.start + q.length ≤ p.start)

/-- Every block is disjoint from every later one (R4 c). R4 leaves open whether one record listed twice is "two different
blocks"; here blocks differ by their place in the table, so such a table is ill-formed. DESIGN CHOICE, safe (log 22). -/
def blocksDisjoint : List Block → Bool
  | []      => true
  | b :: bs => bs.all b.disjoint && blocksDisjoint bs

/-- A configuration the spec admits: `BUF_CAP >= 4` (R2) and a block table that satisfies R4 (a) to (c). -/
def Config.wf (c : Config) : Bool :=
  decide (4 ≤ c.bufCap) && (c.blocks.all Block.inStore && blocksDisjoint c.blocks)

/-- The `q` cells from `a` on lie entirely within `b`, half-open (R152 (3), 90_conflicts.md C1). -/
def Block.covers (b : Block) (a q : Nat) : Bool := decide (b.start ≤ a) && decide (a + q ≤ b.start + b.length)

/-- `VALID_RANGE(a, q)` (R152): generic over the table (R154), over the naturals without wrap (R135, log 12). -/
def validRange (blocks : List Block) (a q : Nat) : Bool :=
  decide (1 ≤ q) && (decide (a + q ≤ 64) && blocks.any fun b => b.covers a q)

end Sys2Proof
end

