-- ==== Sys2Proof/Machine/Bytes.lean ====
section
/-! DEFINITION. Byte order: the two halves of a 16-bit value and the big-endian field. -/

namespace Sys2Proof

/-- `hi(v) = v[15:8]` (00_scope.md section 6.1). -/
def hi (v : Word) : Byte := v.extractLsb' 8 8

/-- `lo(v) = v[7:0]` (00_scope.md section 6.1). -/
def lo (v : Word) : Byte := v.extractLsb' 0 8

/-- `be16(h, l) = h * 256 + l` (R61). -/
def be16 (h l : Byte) : Word := BitVec.ofNat 16 (h.toNat * 256 + l.toNat)

/-- A list of cell values as bytes, each big-endian, in order (R41, R67). -/
def bytesOf (values : List Word) : List Byte := values.flatMap fun v => [hi v, lo v]

/-- The 16-bit fields of a byte list, two bytes each, big-endian, in order (R61); an odd last byte makes no field. -/
def wordsOf : List Byte → List Word
  | h :: l :: rest => be16 h l :: wordsOf rest
  | [_]            => []
  | []             => []

end Sys2Proof
end

