-- ==== Sys2Proof/Machine/Crc.lean ====
section
/-! DEFINITION. The CRC Engine: CRC-16/Modbus (41_crc_engine.md). -/

namespace Sys2Proof

/-- `n` rounds of the loop of R101: shift right by one, and XOR 0xA001 where the bit shifted out was 1. -/
def crcRounds : Nat → Word → Word
  | 0,     c => c
  | n + 1, c => if c.getLsbD 0 then crcRounds n ((c >>> 1) ^^^ 0xA001#16) else crcRounds n (c >>> 1)

/-- `CRC_STEP(c, b)` (R101): the byte enters at the low end, then eight rounds.
PRESUMED by the spec from general knowledge (log 14). -/
def crcStep (c : Word) (b : Byte) : Word := crcRounds 8 (c ^^^ b.setWidth 16)

/-- `CRC16(s)` (R100): initial value 0xFFFF, first byte first, no final XOR. -/
def crc16 (s : List Byte) : Word := s.foldl crcStep 0xFFFF#16

/-- `CRC_OK(buf, len)` (R102, R62): the CRC of all bytes but the last two equals those two, low byte first. -/
def crcOk (f : Frame) : Bool :=
  crc16 (f.take (f.length - 2)) == be16 (f.getD (f.length - 1) 0) (f.getD (f.length - 2) 0)

/-- `CRC_APPEND(s)` (R103): low byte, then high byte (R42). -/
def crcAppend (s : List Byte) : Frame := s ++ [lo (crc16 s), hi (crc16 s)]

end Sys2Proof
end

