-- ==== Sys2Proof/Syntax.lean ====
section
/-! DEFINITION. The instruction set: one constructor of `Instr` for each row of spec/opcode_table.json, with the
operand forms, the input events and the requests as types of their own. -/

namespace Sys2Proof

/-- The three exception codes, by name (R71). -/
inductive ExceptionCode where
  | illegalFunction
  | illegalDataAddress
  | illegalDataValue
  deriving DecidableEq, Repr

/-- What follows the function code in a request 0x03 or 0x06 (R64, R65), CRC excluded. -/
inductive PairOperands where
  /-- `len >= 8`: two 16-bit fields at bytes 2-3 and 4-5, then bytes that are ignored (R74). -/
  | fields (first second : Word) (ignored : List Byte)
  /-- `len < 8`: no field is decoded (R134). -/
  | short (payload : List Byte)
  deriving DecidableEq, Repr

/-- What follows the function code in a request 0x10 (R66), CRC excluded. -/
inductive MultiOperands where
  /-- `len = 9 + byteCount`: startAddress, quantity, byteCount and as many data bytes as byteCount says. -/
  | fields (start quantity : Word) (byteCount : Byte) (data : List Byte)
  /-- Any other length, `len < 9` included (R117, R136). -/
  | badLength (payload : List Byte)
  deriving DecidableEq, Repr

/-- The engine's input events (R7). -/
inductive Event where
  | rxByte (b : Byte)
  | onTimeout
  | reset
  deriving DecidableEq, Repr

/-- A request that has passed the address filter and the CRC check (R114); `addr` is byte 0 of the frame. -/
inductive Request where
  | readHoldingRegisters (addr : Byte) (op : PairOperands)
  | writeSingleRegister (addr : Byte) (op : PairOperands)
  | writeMultipleRegisters (addr : Byte) (op : MultiOperands)
  | illegalFunction (addr function : Byte) (payload : List Byte)
  deriving DecidableEq, Repr

/-- The rows of spec/opcode_table.json: three input events, four requests, four replies. -/
inductive Instr where
  /-- RX_BYTE (R90). -/
  | rxByte (b : Byte)
  /-- ON_TIMEOUT (R93). -/
  | onTimeout
  /-- RESET (R210). -/
  | reset
  /-- ReadHoldingRegisters, 0x03 (R64, R130). -/
  | readHoldingRegisters (addr : Byte) (op : PairOperands)
  /-- WriteSingleRegister, 0x06 (R65, R131). -/
  | writeSingleRegister (addr : Byte) (op : PairOperands)
  /-- WriteMultipleRegisters, 0x10 (R66, R132). -/
  | writeMultipleRegisters (addr : Byte) (op : MultiOperands)
  /-- ILLEGAL_FUNCTION: every function code but 0x03, 0x06, 0x10 (R72, R133). -/
  | illegalFunction (addr function : Byte) (payload : List Byte)
  /-- REPLY_RHR (R67): the values in ascending order of their cells. -/
  | replyRhr (addr : Byte) (values : List Word)
  /-- REPLY_WSR (R68): the echoed register address and value. -/
  | replyWsr (addr : Byte) (address value : Word)
  /-- REPLY_WMR (R69). -/
  | replyWmr (addr : Byte) (start quantity : Word)
  /-- REPLY_EXCEPTION (R70): `function` is byte 1, the request's function code with or without bit 7 set yet. -/
  | replyException (addr function : Byte) (code : ExceptionCode)
  deriving DecidableEq, Repr

/-- The event as an instruction of the table. -/
def Event.toInstr : Event → Instr
  | .rxByte b  => .rxByte b
  | .onTimeout => .onTimeout
  | .reset     => .reset

/-- The request as an instruction of the table. -/
def Request.toInstr : Request → Instr
  | .readHoldingRegisters addr op   => .readHoldingRegisters addr op
  | .writeSingleRegister addr op    => .writeSingleRegister addr op
  | .writeMultipleRegisters addr op => .writeMultipleRegisters addr op
  | .illegalFunction addr fn p      => .illegalFunction addr fn p

end Sys2Proof
end

