-- ==== Sys2Proof/WellFormed.lean ====
section
/-! DEFINITION. The checks an instruction of the table passes: the formats of 30_encoding.md sections 4 and 5. -/

namespace Sys2Proof

/-- The number of payload bytes (bytes 2 to `len-3`) of a request 0x03 or 0x06. -/
def PairOperands.size : PairOperands → Nat
  | .fields _ _ ignored => 4 + ignored.length
  | .short payload      => payload.length

/-- The number of payload bytes of a request 0x10. -/
def MultiOperands.size : MultiOperands → Nat
  | .fields _ _ _ data  => 5 + data.length
  | .badLength payload  => payload.length

/-- R64, R65: the form without fields is the one of a frame shorter than 8 bytes. -/
def PairOperands.wf : PairOperands → Bool
  | .fields _ _ _   => true
  | .short payload  => decide (payload.length < 4)

/-- R66: the form with fields has exactly `9 + byteCount` bytes, the other form any other length. -/
def MultiOperands.wf : MultiOperands → Bool
  | .fields _ _ byteCount data => data.length == byteCount.toNat
  | .badLength payload         => decide (payload.length < 5) || payload.length != 5 + (payload.getD 4 0).toNat

/-- A request is for this engine (R73) and fits the frame buffer (R75): 4 bytes and its payload. -/
def requestFits (c : Config) (addr : Byte) (size : Nat) : Bool :=
  addr == c.slaveAddr && decide (4 + size ≤ c.bufCap)

/-- Well-formedness of an instruction of the table, for the engine configured as `c`. -/
def Instr.wf (c : Config) : Instr → Bool
  | .rxByte _                        => true
  | .onTimeout                       => true
  | .reset                           => true
  | .readHoldingRegisters addr op    => requestFits c addr op.size && op.wf
  | .writeSingleRegister addr op     => requestFits c addr op.size && op.wf
  | .writeMultipleRegisters addr op  => requestFits c addr op.size && op.wf
  | .illegalFunction addr fn payload =>
      requestFits c addr payload.length && (fn != 0x03#8 && fn != 0x06#8 && fn != 0x10#8)
  | .replyRhr addr values            => addr == c.slaveAddr && (decide (1 ≤ values.length) && decide (values.length ≤ 64))
  | .replyWsr addr _ _               => addr == c.slaveAddr
  | .replyWmr addr _ _               => addr == c.slaveAddr
  | .replyException addr fn _        => addr == c.slaveAddr && fn.getLsbD 7

/-- Well-formedness of a request: that of the instruction it stands for. -/
def Request.wf (c : Config) (r : Request) : Bool := r.toInstr.wf c

end Sys2Proof
end

