-- ==== Sys2Proof/Decode.lean ====
section
/-! DEFINITION. The decoder of received frames, total on any bytes and rejecting by name; then the encoder. The
"instruction word" is the assembled frame and the opcode is its byte 1 (30_encoding.md). -/

namespace Sys2Proof

/-- Why a frame is no request of this engine: the four silent discards (R180, R182), in the order of R115. -/
inductive Reject where
  /-- Nothing was received before the timeout (R94). -/
  | empty
  /-- 1 to 3 bytes (R94). -/
  | runt
  /-- Byte 0 is not SLAVE_ADDR (R112). -/
  | addressMismatch
  /-- The CRC does not match (R113). -/
  | crcError
  deriving DecidableEq, Repr

/-- Bytes 2 to `len-3` of a frame (R60). -/
def payloadOf (f : Frame) : List Byte := (f.take (f.length - 2)).drop 2

/-- The fields of a request 0x03 or 0x06 (R61, R64, R65): four payload bytes are there exactly when `len >= 8`. -/
def parsePair : List Byte → PairOperands
  | b2 :: b3 :: b4 :: b5 :: ignored => .fields (be16 b2 b3) (be16 b4 b5) ignored
  | payload => .short payload

/-- The fields of a request 0x10 (R61, R66). Byte 6 is looked at only when it is there (R136). -/
def parseMulti (payload : List Byte) : MultiOperands :=
  match payload with
  | b2 :: b3 :: b4 :: b5 :: b6 :: data =>
      if data.length = b6.toNat then .fields (be16 b2 b3) (be16 b4 b5) b6 data else .badLength payload
  | _ => .badLength payload

/-- The function decode (R63, R114): all eight bits of byte 1, and nothing else, select the request. -/
def parseRequest (addr function : Byte) (payload : List Byte) : Request :=
  if function = 0x03#8 then .readHoldingRegisters addr (parsePair payload)
  else if function = 0x06#8 then .writeSingleRegister addr (parsePair payload)
  else if function = 0x10#8 then .writeMultipleRegisters addr (parseMulti payload)
  else .illegalFunction addr function payload

/-- The decoder: length, address filter, CRC, function, in that order (R115). -/
def decode (slaveAddr : Byte) (f : Frame) : Except Reject Request :=
  if f.length = 0 then .error .empty
  else if f.length < 4 then .error .runt
  else if f.getD 0 0 ≠ slaveAddr then .error .addressMismatch
  else if crcOk f = false then .error .crcError
  else .ok (parseRequest (f.getD 0 0) (f.getD 1 0) (payloadOf f))

/-! The encoder. -/

/-- The numeric exception codes (R71). -/
def ExceptionCode.byte : ExceptionCode → Byte
  | .illegalFunction    => 0x01#8
  | .illegalDataAddress => 0x02#8
  | .illegalDataValue   => 0x03#8

/-- The payload bytes of R64 and R65. -/
def PairOperands.bytes : PairOperands → List Byte
  | .fields first second ignored => hi first :: lo first :: hi second :: lo second :: ignored
  | .short payload               => payload

/-- The payload bytes of R66. -/
def MultiOperands.bytes : MultiOperands → List Byte
  | .fields start quantity byteCount data =>
      hi start :: lo start :: hi quantity :: lo quantity :: byteCount :: data
  | .badLength payload => payload

/-- The bytes before the CRC of each request and reply (R64 to R70). An event has none: it is not a frame (R90, R93). -/
def body : Instr → List Byte
  | .rxByte _                       => []
  | .onTimeout                      => []
  | .reset                          => []
  | .readHoldingRegisters addr op   => addr :: 0x03#8 :: op.bytes
  | .writeSingleRegister addr op    => addr :: 0x06#8 :: op.bytes
  | .writeMultipleRegisters addr op => addr :: 0x10#8 :: op.bytes
  | .illegalFunction addr fn p      => addr :: fn :: p
  | .replyRhr addr values           => addr :: 0x03#8 :: BitVec.ofNat 8 (2 * values.length) :: bytesOf values
  | .replyWsr addr a v              => [addr, 0x06#8, hi a, lo a, hi v, lo v]
  | .replyWmr addr a q              => [addr, 0x10#8, hi a, lo a, hi q, lo q]
  | .replyException addr fn code    => [addr, fn ||| 0x80#8, code.byte]

/-- The frame of an instruction: its bytes and their CRC, low byte first (R60, R103). Events have no bytes. -/
def encode (i : Instr) : Frame := if (body i).isEmpty then [] else crcAppend (body i)

/-! The reply formats read back, as a master would read them. The engine itself never decodes a reply (log 15). -/

/-- Why a frame is no reply of this engine. -/
inductive ReplyReject where
  /-- Shorter than the shortest reply, 5 bytes (R174). -/
  | tooShort
  /-- The CRC does not match (R104). -/
  | crcError
  /-- Byte 1 is none of 0x03, 0x06, 0x10 and has bit 7 clear (R67 to R70). -/
  | unknownFunction
  /-- The payload is not of the shape `parseReply` reads for byte 1 (R67 to R71, log 15). -/
  | malformed
  deriving DecidableEq, Repr

/-- The exception code of a byte (R71); no other code is ever sent. -/
def ExceptionCode.ofByte (b : Byte) : Option ExceptionCode :=
  if b = 0x01#8 then some .illegalFunction
  else if b = 0x02#8 then some .illegalDataAddress
  else if b = 0x03#8 then some .illegalDataValue
  else none

/-- A reply's payload by its format (R67 to R70). The spec gives no reader of replies. A 0x03 reply is read by its byteCount
alone, any even one: 0 and those above 128, which no reply of R67 and R76 has, give 0 and more than 64 values. DESIGN CHOICE,
safe (log 15). -/
def parseReply (addr function : Byte) (payload : List Byte) : Except ReplyReject Instr :=
  if function.getLsbD 7 then
    match payload with
    | [code] => match ExceptionCode.ofByte code with
      | some e => .ok (.replyException addr function e)
      | none => .error .malformed
    | _ => .error .malformed
  else if function = 0x03#8 then
    match payload with
    | count :: data =>
      if data.length = count.toNat ∧ data.length = 2 * (data.length / 2) then .ok (.replyRhr addr (wordsOf data))
      else .error .malformed
    | [] => .error .malformed
  else if function = 0x06#8 then
    match payload with
    | [b2, b3, b4, b5] => .ok (.replyWsr addr (be16 b2 b3) (be16 b4 b5))
    | _ => .error .malformed
  else if function = 0x10#8 then
    match payload with
    | [b2, b3, b4, b5] => .ok (.replyWmr addr (be16 b2 b3) (be16 b4 b5))
    | _ => .error .malformed
  else .error .unknownFunction

/-- The decoder of transmitted frames. -/
def decodeReply (f : Frame) : Except ReplyReject Instr :=
  if f.length < 5 then .error .tooShort
  else if crcOk f = false then .error .crcError
  else parseReply (f.getD 0 0) (f.getD 1 0) (payloadOf f)

/-! The host's table words. -/

/-- `bytes` filled up with zero bytes to at least `n` bytes. -/
def padTo (n : Nat) (bytes : List Byte) : List Byte := bytes ++ List.replicate (n - bytes.length) 0#8

/-- The bytes of a table word: byte 1 of the frame in bits 7..0, each later byte above it. -/
def tableBytes (nbits w : Nat) : List Byte :=
  (List.range (max 1 ((nbits + 7) / 8))).map fun k => BitVec.ofNat 8 (w >>> (8 * k))

/-- The frame of a table word (log 13): the slave address, byte 1 and what the word gives after it, zero operand bytes up to
the shortest length at which the request's fields are decoded, and the CRC. -/
def tableFrame (slaveAddr : Byte) (nbits w : Nat) : Frame :=
  let bytes := tableBytes nbits w
  crcAppend (slaveAddr :: padTo (if bytes.getD 0 0 = 0x10#8 then 6 else 5) bytes)

/-- The instruction the decoder reads from a table word, for the engine at its reference address (log 13). -/
def decodeTableWord (nbits w : Nat) : Option Instr :=
  match decode Config.reference.slaveAddr (tableFrame Config.reference.slaveAddr nbits w) with
  | .ok r    => some r.toInstr
  | .error _ => none

end Sys2Proof
end

