-- ==== Sys2Proof/Machine/State.lean ====
section
/-! DEFINITION. The machine's state as plain data, the reasons a step can stop, and the state after reset. -/

namespace Sys2Proof.Machine

/-- A byte memory: (index, byte) cells with rising indices, none holding what an unlisted index reads as. -/
abbrev Memory := List Host.Cell

/-- What an unlisted index of the frame buffer reads as: the value of "clear" and of reset (R11, R95, log 11). -/
def Memory.blank : Byte := 0x00#8

/-- The canonical form: equal contents are equal data. -/
abbrev Memory.wf (m : Memory) : Prop := m.Pairwise (fun p q => p.1 < q.1) ∧ ∀ c ∈ m, c.2 ≠ Memory.blank

/-- The dispatcher state (R14, R111). -/
inductive DState where
  | idle
  | validating
  | decoding
  | responding
  deriving DecidableEq, Repr

/-- The Engine Status (R15). -/
inductive Status where
  | ok
  | timedOut
  | crcError
  | frameError
  | addressMismatch
  deriving DecidableEq, Repr

/-- An operation of the second agent (R155), on any natural address. -/
inductive PortbOp where
  | read (a : Nat)
  | write (a : Nat) (v : Word)
  deriving DecidableEq, Repr

/-- What the environment delivers next: an event of the engine, or an operation of PORTB between events. -/
inductive Input where
  | event (e : Event)
  | portb (op : PortbOp)
  deriving DecidableEq, Repr

/-- The engine has no trap and no fault state (60_exceptions.md, 93_implementation_defined.md part 1: "No entry needs
fault"), so no step ends in a fault and this type has no constructor (log 21). -/
inductive Fault where
  deriving DecidableEq, Repr

/-- Why a step has no next state. -/
inductive Refusal where
  /-- An instruction of the table without a meaning yet; raised by `exec` only. Safe. -/
  | notModelled (mnemonic : String)
  /-- An event presented while the previous step has not ended, `dstate` not Idle (U1, U6: "refuse"); raised by the three
  events. Safe: the spec leaves the behaviour undefined (log 5). -/
  | eventOverlap
  /-- A configuration that violates R2 or R4 (U2, U4: "refuse the configuration"); raised by `step`. Safe (log 6). -/
  | illFormedConfig
  deriving DecidableEq, Repr

/-- The state of one engine instance (10_state.md), its configuration, and the inputs and outputs as plain data. -/
structure State where
  /-- The configuration registers, which no step writes (R19). -/
  cfg : Config
  /-- The Register Store (R10). -/
  x : Vector Word 64
  /-- The frame buffer (R11), bytes by index. -/
  buf : Memory
  /-- The write index and accumulated length (R12). -/
  widx : Nat
  /-- The dispatcher state (R14). -/
  dstate : DState
  /-- The Engine Status (R15). -/
  status : Status
  /-- The received-byte count (R17). -/
  rxCount : Nat
  /-- The transmitted-frame count (R18). -/
  txCount : Nat
  /-- The output `appended`, raised by the last step (R23, R92, log 8). -/
  appended : Bool
  /-- MODEL's own: the frames handed to TRANSMIT so far, oldest first (R9, log 7). -/
  sent : List Frame
  /-- MODEL's own: the values PORTB_READ has returned so far, oldest first (R155, log 7). -/
  portbSeen : List Word
  /-- MODEL's own: what the environment delivers, in order (R9, R188, log 3). -/
  inbox : List Input
  /-- MODEL's own: PORTB's operations inside requests, one list for each point of R52 (log 4). -/
  portbSchedule : List (List PortbOp)
  deriving DecidableEq, Repr

/-- The machine right after reset (R210, 10_state.md section 9), at the reference configuration (log 1), with no input
delivered and no output made yet (log 3, log 4, log 7, log 8). -/
def State.reset : State where
  cfg           := Config.reference
  x             := Config.reference.storeInit
  buf           := []
  widx          := 0
  dstate        := .idle
  status        := .ok
  rxCount       := 0
  txCount       := 0
  appended      := false
  sent          := []
  portbSeen     := []
  inbox         := []
  portbSchedule := []

end Sys2Proof.Machine
end

