-- ==== Sys2Proof/Machine/Flags.lean ====
section
/-! DEFINITION. The diagnostic registers: which outcome writes which status, and the saturating counters. "Flags" for
this hardware means `status` (43_function_codes.md). -/

namespace Sys2Proof.Machine

/-- The encoding of `status` where it is held in bits (R16). -/
def Status.code : Status → BitVec 3
  | .ok              => 0#3
  | .timedOut        => 1#3
  | .crcError        => 2#3
  | .frameError      => 3#3
  | .addressMismatch => 4#3

/-- The status a silent discard records (R183, R94, R112, R113; the spec's decision D5 but for CrcError, log 9). -/
def discardStatus : Reject → Status
  | .empty           => .timedOut
  | .runt            => .frameError
  | .addressMismatch => .addressMismatch
  | .crcError        => .crcError

/-- `sat_inc` (00_scope.md section 6.2, R6): a counter of `width` bits stops at `2^width - 1` (log 10). -/
def satInc (width c : Nat) : Nat := if c < 2 ^ width - 1 then c + 1 else c

/-- `rx_count <- sat_inc(rx_count)` (R97). -/
def State.countRx (s : State) : State := { s with rxCount := satInc s.cfg.ctrWidth s.rxCount }

/-- `tx_count <- sat_inc(tx_count)` (R172). -/
def State.countTx (s : State) : State := { s with txCount := satInc s.cfg.ctrWidth s.txCount }

end Sys2Proof.Machine
end

