-- ==== Sys2Proof/Machine/Ops.lean ====
section
/-! DEFINITION. The named operations on the frame buffer, the Register Store and the transport, and taking an exception
with the return from it. -/

namespace Sys2Proof.Machine

/-! The frame buffer as byte memory. -/

/-- The byte at index `i`. -/
def Memory.read : Memory → Nat → Byte
  | [],         _ => Memory.blank
  | c :: cells, i => if c.1 = i then c.2 else Memory.read cells i

/-- `cells` with one cell in front, unless that cell holds what an unlisted index reads as. -/
def Memory.cons (i : Nat) (b : Byte) (cells : Memory) : Memory :=
  if b = Memory.blank then cells else (i, b) :: cells

/-- The memory with byte `b` at index `i`, in canonical form again. -/
def Memory.write : Memory → Nat → Byte → Memory
  | [],         i, b => Memory.cons i b []
  | c :: cells, i, b =>
      if c.1 < i then c :: Memory.write cells i b
      else if c.1 = i then Memory.cons i b cells
      else Memory.cons i b (c :: cells)

/-- The memory that holds `bytes` from index `i` on and nothing else. -/
def Memory.ofBytes : Nat → List Byte → Memory
  | _, []         => []
  | i, b :: bytes => Memory.cons i b (Memory.ofBytes (i + 1) bytes)

/-- The frame received so far: `buf[0 .. widx)` (R56, R98). -/
def State.frame (s : State) : Frame := (List.range s.widx).map s.buf.read

/-! The Register Store: its single owner's two operations (R156). -/

/-- `MemRead(a, 1)` (R150): 0 outside the store. -/
def State.memRead (s : State) (a : Nat) : Word := if h : a < 64 then s.x[a] else 0x0000#16

/-- `MemWrite(a, 1, v)` (R151): nothing outside the store. -/
def State.memWrite (s : State) (a : Nat) (v : Word) : State :=
  if h : a < 64 then { s with x := s.x.set a v h } else s

/-! The second port (R155). -/

/-- One PORTB operation: `PORTB_READ(a)` hands the cell's value to the agent, `PORTB_WRITE(a, v)` writes it. The validator
is not asked. -/
def State.portbStep (s : State) : PortbOp → State
  | .read a    => { s with portbSeen := s.portbSeen ++ [s.memRead a] }
  | .write a v => s.memWrite a v

/-- PORTB's operations in their order. -/
def State.portbRun (s : State) (ops : List PortbOp) : State := ops.foldl State.portbStep s

/-- A point of R52 inside a request: under `between_cells` the agent performs the operations scheduled for it; under
`between_events` it does nothing there (log 4). -/
def State.portbPoint (s : State) : State :=
  match s.cfg.granularity with
  | .betweenEvents => s
  | .betweenCells  =>
    match s.portbSchedule with
    | []          => s
    | ops :: rest => { s with portbSchedule := rest }.portbRun ops

/-- The reads of a request, ascending from `a`, one cell each, with a point of R52 before each and after the last
(R45, R51): the values in order, and the state after. -/
def State.readCells (s : State) (a : Nat) : Nat → List Word × State
  | 0     => ([], s.portbPoint)
  | n + 1 =>
    let here := s.portbPoint
    let rest := here.readCells (a + 1) n
    (here.memRead a :: rest.1, rest.2)

/-- The writes of a request, ascending from `a`, one cell each, with a point of R52 before each and after the last
(R45, R51). -/
def State.writeCells (s : State) (a : Nat) : List Word → State
  | []          => s.portbPoint
  | v :: values => (s.portbPoint.memWrite a v).writeCells (a + 1) values

/-! The Response Builder (45_response_builder.md). -/

/-- `TRANSMIT(frame)` (R173). -/
def State.transmit (s : State) (f : Frame) : State := { s with sent := s.sent ++ [f] }

/-- What both builders do with the bytes before the CRC: dstate, CRC, TRANSMIT, counter ("forwards identically", R171). -/
def State.forward (s : State) (bytes : List Byte) : State :=
  ({ s with dstate := .responding }.transmit (crcAppend bytes)).countTx

/-- `BUILD_RESPONSE(addr, function, payload)` (R170). -/
def State.buildResponse (s : State) (addr function : Byte) (payload : List Byte) : State :=
  s.forward (addr :: function :: payload)

/-- `BUILD_EXCEPTION(addr, function, code)` (R171). -/
def State.buildException (s : State) (addr function : Byte) (code : ExceptionCode) : State :=
  s.forward [addr, function ||| 0x80#8, code.byte]

/-! Taking an exception and returning from it (60_exceptions.md section 2). -/

/-- `raise E(fc)` (R184): the exception reply and nothing else; nothing is saved and no cell is accessed. The caller does
nothing after it, so it ends the dispatch. -/
def State.raise (s : State) (addr function : Byte) (e : ExceptionCode) : State := s.buildException addr function e

/-- `raise IllegalDataValue(fc)` of a failed length precheck (R117): the status is FrameError. -/
def State.raiseLength (s : State) (addr function : Byte) : State :=
  { s with status := .frameError }.raise addr function .illegalDataValue

/-- The return to the assembler after any outcome (R185, R95): Idle, index 0, every byte of the buffer cleared. -/
def State.returnToIdle (s : State) : State := { s with dstate := .idle, widx := 0, buf := [] }

/-- A silent discard (R182): the status and nothing else. -/
def State.discard (s : State) (r : Reject) : State := { s with status := discardStatus r }

/-- An event is accepted in Idle only (R111, R187); an overlapping one is refused (U1, U6, log 5). -/
def whenIdle (s : State) (s' : State) : Host.Outcome State Fault Refusal :=
  if s.dstate = .idle then .next s' else .refused .eventOverlap

end Sys2Proof.Machine
end

