-- ==== Sys2Proof/Machine/Operands.lean ====
section
/-! DEFINITION. The operand forms of the requests as the machine uses them: the one addressing mode, a run of cells given
by two 16-bit fields, and the values of a multiple write. -/

namespace Sys2Proof.Machine

/-- The range check of a request in the machine's configuration: `VALID_RANGE(a, q)` on two unsigned fields (R152). -/
def State.validRange (s : State) (a q : Nat) : Bool := Sys2Proof.validRange s.cfg.blocks a q

/-- The payload of a read reply (R67): the byte count, one byte, then the values. No request reads more than 64 cells; an
ill-formed REPLY_RHR of 128 values or more has its count cut to 8 bits. DESIGN CHOICE, safe (log 15). -/
def readPayload (values : List Word) : List Byte := BitVec.ofNat 8 (2 * values.length) :: bytesOf values

/-- `byteCount = 2 * quantity` (R132), over the naturals (R135). -/
def byteCountMatches (byteCount : Byte) (quantity : Word) : Bool := byteCount.toNat == 2 * quantity.toNat

end Sys2Proof.Machine
end

