-- ==== Sys2Proof/Machine/Replies.lean ====
section
/-! DEFINITION. The four reply rows: each builds its frame and hands it to the transport (45_response_builder.md). -/

namespace Sys2Proof.Machine

/-- The normal reply of function 0x03 (R67, R170). -/
def State.replyRead (s : State) (addr : Byte) (values : List Word) : State :=
  s.buildResponse addr 0x03#8 (readPayload values)

/-- The normal reply of functions 0x06 and 0x10 (R68, R69, R170): the request's bytes 2 to 5 come back. -/
def State.replyEcho (s : State) (addr function : Byte) (first second : Word) : State :=
  s.buildResponse addr function [hi first, lo first, hi second, lo second]

/-- REPLY_RHR (R67, R170). -/
def execReplyRhr (addr : Byte) (values : List Word) (s : State) : Host.Outcome State Fault Refusal :=
  .next (s.replyRead addr values)

/-- REPLY_WSR (R68, R170). -/
def execReplyWsr (addr : Byte) (address value : Word) (s : State) : Host.Outcome State Fault Refusal :=
  .next (s.replyEcho addr 0x06#8 address value)

/-- REPLY_WMR (R69, R170). -/
def execReplyWmr (addr : Byte) (start quantity : Word) (s : State) : Host.Outcome State Fault Refusal :=
  .next (s.replyEcho addr 0x10#8 start quantity)

/-- REPLY_EXCEPTION (R70, R171). -/
def execReplyException (addr function : Byte) (code : ExceptionCode) (s : State) : Host.Outcome State Fault Refusal :=
  .next (s.buildException addr function code)

end Sys2Proof.Machine
end

