-- ==== Sys2Proof/Machine/Requests.lean ====
section
/-! DEFINITION. The four requests (43_function_codes.md), entered after the address filter and the CRC check with
`status = Ok` set by the dispatcher (R110). -/

namespace Sys2Proof.Machine

/-- `RHR` (R130). -/
def State.serveRead (s : State) (addr : Byte) : PairOperands → State
  | .short _ => s.raiseLength addr 0x03#8
  | .fields start quantity _ =>
      if s.validRange start.toNat quantity.toNat then
        let read := s.readCells start.toNat quantity.toNat
        read.2.replyRead addr read.1
      else s.raise addr 0x03#8 .illegalDataAddress

/-- `WSR` (R131): every value is accepted; the write is done before the reply. -/
def State.serveWrite (s : State) (addr : Byte) : PairOperands → State
  | .short _ => s.raiseLength addr 0x06#8
  | .fields address value _ =>
      if s.validRange address.toNat 1 then
        (s.writeCells address.toNat [value]).replyEcho addr 0x06#8 address value
      else s.raise addr 0x06#8 .illegalDataAddress

/-- `WMR` (R132): length, byteCount, range, in that order; no cell is written unless all three pass. -/
def State.serveWriteMultiple (s : State) (addr : Byte) : MultiOperands → State
  | .badLength _ => s.raiseLength addr 0x10#8
  | .fields start quantity byteCount data =>
      if byteCountMatches byteCount quantity = false then s.raise addr 0x10#8 .illegalDataValue
      else if s.validRange start.toNat quantity.toNat then
        (s.writeCells start.toNat (wordsOf data)).replyEcho addr 0x10#8 start quantity
      else s.raise addr 0x10#8 .illegalDataAddress

/-- Any other function code (R133): the payload is not looked at. -/
def State.serveUnknown (s : State) (addr function : Byte) : State := s.raise addr function .illegalFunction

/-- ReadHoldingRegisters (R130). -/
def execReadHoldingRegisters (addr : Byte) (op : PairOperands) (s : State) : Host.Outcome State Fault Refusal :=
  .next (s.serveRead addr op)

/-- WriteSingleRegister (R131). -/
def execWriteSingleRegister (addr : Byte) (op : PairOperands) (s : State) : Host.Outcome State Fault Refusal :=
  .next (s.serveWrite addr op)

/-- WriteMultipleRegisters (R132). -/
def execWriteMultipleRegisters (addr : Byte) (op : MultiOperands) (s : State) : Host.Outcome State Fault Refusal :=
  .next (s.serveWriteMultiple addr op)

/-- ILLEGAL_FUNCTION (R133). -/
def execIllegalFunction (addr function : Byte) (s : State) : Host.Outcome State Fault Refusal :=
  .next (s.serveUnknown addr function)

/-- The case of R110 step 3: each request to its procedure. -/
def State.serve (s : State) : Request → State
  | .readHoldingRegisters addr op   => s.serveRead addr op
  | .writeSingleRegister addr op    => s.serveWrite addr op
  | .writeMultipleRegisters addr op => s.serveWriteMultiple addr op
  | .illegalFunction addr fn _      => s.serveUnknown addr fn

end Sys2Proof.Machine
end

