-- ==== Sys2Proof/Machine/Events.lean ====
section
/-! DEFINITION. The three input events: the Frame Assembler's two operations (40_frame_assembler.md), the dispatch inside
ON_TIMEOUT (42_frame_dispatcher.md), and RESET (70_reset_and_hazards.md). -/

namespace Sys2Proof.Machine

/-- `RX_BYTE(b)` (R90): counted whether stored or not (R97), stored while there is room, else dropped (R91). -/
def State.receive (s : State) (b : Byte) : State :=
  let s := s.countRx
  if s.widx < s.cfg.bufCap then
    { s with buf := s.buf.write s.widx b, widx := s.widx + 1, appended := true }
  else { s with appended := false }

/-- A runt or an empty buffer (R94): the dispatcher is not entered. -/
def State.runt (s : State) : State := s.discard (if s.widx = 0 then .empty else .runt)

/-- The dispatcher takes the frame over (R110, R111): Idle to Validating. -/
def State.validate (s : State) : State := { s with dstate := .validating }

/-- Both tests have passed (R110, R111, R116): Validating to Decoding, status Ok. -/
def State.accept (s : State) : State := { s with dstate := .decoding, status := .ok }

/-- `DISPATCH(len)` (R110) on the frame in `buf[0 .. widx)`. -/
def State.dispatch (s : State) : State :=
  match decode s.cfg.slaveAddr s.frame with
  | .error r => s.validate.discard r
  | .ok req  => s.validate.accept.serve req

/-- The frame is dispatched from 4 bytes on, else it is a runt (R93). -/
def State.handleFrame (s : State) : State := if 4 ≤ s.widx then s.dispatch else s.runt

/-- `ON_TIMEOUT` (R93): the frame, then the unconditional reset of the assembler (R95). -/
def State.timeout (s : State) : State := { s with appended := false }.handleFrame.returnToIdle

/-- `RESET` (R210): every state element at its reset value; the configuration stays, nothing is transmitted, and what was
handed to the transport or is still to be delivered is not the engine's (R211, log 7). -/
def State.reinit (s : State) : State :=
  { s with x := s.cfg.storeInit, buf := [], widx := 0, dstate := .idle, status := .ok, rxCount := 0, txCount := 0,
           appended := false }

/-- RX_BYTE (R90). -/
def execRxByte (b : Byte) (s : State) : Host.Outcome State Fault Refusal := whenIdle s (s.receive b)

/-- ON_TIMEOUT (R93). -/
def execOnTimeout (s : State) : Host.Outcome State Fault Refusal := whenIdle s s.timeout

/-- RESET (R210). -/
def execReset (s : State) : Host.Outcome State Fault Refusal := whenIdle s s.reinit

end Sys2Proof.Machine
end

