-- ==== Sys2Proof/Machine/Dispatch.lean ====
section
/-! DEFINITION. One arm for each instruction of the table. -/

namespace Sys2Proof.Machine

-- What each row of spec/opcode_table.json does.
def exec (i : Instr) (s : State) : Host.Outcome State Fault Refusal :=
  match i with
  | .rxByte b => Sys2Proof.Machine.execRxByte b s
  | .onTimeout => Sys2Proof.Machine.execOnTimeout s
  | .reset => Sys2Proof.Machine.execReset s
  | .readHoldingRegisters addr op => Sys2Proof.Machine.execReadHoldingRegisters addr op s
  | .writeSingleRegister addr op => Sys2Proof.Machine.execWriteSingleRegister addr op s
  | .writeMultipleRegisters addr op => Sys2Proof.Machine.execWriteMultipleRegisters addr op s
  | .illegalFunction addr fn _ => Sys2Proof.Machine.execIllegalFunction addr fn s
  | .replyRhr addr values => Sys2Proof.Machine.execReplyRhr addr values s
  | .replyWsr addr a v => Sys2Proof.Machine.execReplyWsr addr a v s
  | .replyWmr addr a q => Sys2Proof.Machine.execReplyWmr addr a q s
  | .replyException addr fn code => Sys2Proof.Machine.execReplyException addr fn code s

end Sys2Proof.Machine
end

