-- ==== Sys2Proof/Machine/Step.lean ====
section
/-! DEFINITION. One step of the machine: the next input the environment delivers (00_scope.md R7 to R9). -/

namespace Sys2Proof.Machine

/-- The state at the start of a step: the input taken from the inbox, the one-event output `appended` lowered (log 8). -/
def State.begin (s : State) (rest : List Input) : State := { s with inbox := rest, appended := false }

/-- One step. With nothing delivered the engine rests (R195); an ill-formed configuration is refused (U2, U4, log 6). -/
def step (s : State) : Host.Outcome State Fault Refusal :=
  if s.cfg.wf then
    match s.inbox with
    | []                => .next (s.begin [])
    | .event e :: rest  => exec e.toInstr (s.begin rest)
    | .portb op :: rest => .next ((s.begin rest).portbStep op)
  else .refused .illFormedConfig

/-- `s` with the frame of a table word in the buffer and the ON_TIMEOUT that closes it delivered next (log 13): the bytes
RX_BYTE events would have stored. The engine is Idle, as it is at every event boundary. -/
def State.withFetchWord (s : State) (nbits w : Nat) : State :=
  let f := tableFrame s.cfg.slaveAddr nbits w
  { s with buf := Memory.ofBytes 0 f, widx := f.length, dstate := .idle, inbox := .event .onTimeout :: s.inbox }

end Sys2Proof.Machine
end

