-- ==== Sys2Proof/Safety.lean ====
section
/-! DEFINITION. What a safe state and a safe run are, and the words the claims use. -/

namespace Sys2Proof.Machine

/-- What holds at every event boundary of an engine with an admissible configuration. -/
structure State.Inv (s : State) : Prop where
  /-- R2, R4 (a) to (c). -/
  cfgWf   : s.cfg.wf = true
  /-- R14: Idle at every event boundary. -/
  idle    : s.dstate = .idle
  /-- R13. -/
  widxLe  : s.widx ≤ s.cfg.bufCap
  /-- The buffer is in canonical form. -/
  bufWf   : s.buf.wf
  /-- No byte lies at or above the write index (R95, R98). -/
  bufLt   : ∀ c ∈ s.buf, c.1 < s.widx
  /-- R17. -/
  rxRange : s.rxCount < 2 ^ s.cfg.ctrWidth
  /-- R18. -/
  txRange : s.txCount < 2 ^ s.cfg.ctrWidth

/-- PORTB does nothing inside a request: it may act between events only (R52, R157). -/
def State.portbQuiet (s : State) : Prop := s.cfg.granularity = .betweenEvents ∨ s.portbSchedule = []

/-- The state after `n` points of R52, with no engine access between them: PORTB's own work inside a request. -/
def State.afterPoints (s : State) : Nat → State
  | 0     => s
  | n + 1 => s.portbPoint.afterPoints n

/-- The frame is for this engine and authentic: at least 4 bytes, its address byte is SLAVE_ADDR, and the CRC of all bytes
but the last two is the value of those two, low byte first (R60, R62, R102). -/
def accepted (c : Config) (f : Frame) : Prop :=
  4 ≤ f.length ∧ f.getD 0 0 = c.slaveAddr ∧
    crc16 (f.take (f.length - 2)) = be16 (f.getD (f.length - 1) 0) (f.getD (f.length - 2) 0)

/-- Instruction `i` transmits `body` with its CRC, counts the frame, and does nothing else that a run can show (R171, R170): no
cell, no status, no byte of the frame. PORTB has no point inside it (log 4). The dispatcher state is left aside. -/
def onlyReplies (s : State) (i : Instr) (body : List Byte) : Prop :=
  ∃ t, exec i s = .next t ∧ { t with dstate := s.dstate } = { s with
    sent := s.sent ++ [crcAppend body]
    txCount := satInc s.cfg.ctrWidth s.txCount }

/-- The outcome of running one event after another, from `s`, as the engine's inputs (R9). -/
def runEvents : List Event → State → Host.Outcome State Fault Refusal
  | [],      s => .next s
  | e :: es, s =>
    match exec e.toInstr s with
    | .next t    => runEvents es t
    | .fault r   => .fault r
    | .refused r => .refused r

end Sys2Proof.Machine
end

