-- ==== Sys2Proof/Certificates/Slice0/Obligations.lean ====
section
/-! DEFINITION. What is claimed of the model, each statement a rule of the spec or what several of them give together.
Words: a state is QUIET when PORTB does nothing inside a request (`State.portbQuiet`); a frame is ACCEPTED when it passes the
address filter and the CRC check (`accepted`). "The spec's decision D<n>" is a row of spec/92_eei_decisions.md. -/

open Sys2Proof Sys2Proof.Machine

/-! ### Reset and the shape of a step -/

/-- 10_state.md section 9. The values other than the store's are the spec's decisions D10 and D16 (log 2); the configuration
is the reference one (log 1). -/
def Obligations.ResetStateHoldsResetValues : Prop :=
  State.reset.x = State.reset.cfg.storeInit ∧ (∀ i, State.reset.buf.read i = 0x00#8) ∧ State.reset.widx = 0 ∧
  State.reset.dstate = .idle ∧ State.reset.status = .ok ∧ State.reset.rxCount = 0 ∧ State.reset.txCount = 0 ∧
  State.reset.cfg = Config.reference

/-- R210 (decisions D16, D23): every state element at its reset value, the configuration kept, nothing transmitted, and the
environment's inputs untouched. -/
def Obligations.ResetEventRestoresResetValues : Prop :=
  ∀ s : State, s.dstate = .idle → ∃ t, exec .reset s = .next t ∧
    t.x = s.cfg.storeInit ∧ (∀ i, t.buf.read i = 0x00#8) ∧ t.widx = 0 ∧ t.dstate = .idle ∧ t.status = .ok ∧
    t.rxCount = 0 ∧ t.txCount = 0 ∧ t.appended = false ∧
    t.cfg = s.cfg ∧ t.sent = s.sent ∧ t.portbSeen = s.portbSeen ∧ t.inbox = s.inbox ∧ t.portbSchedule = s.portbSchedule

/-- One step takes the next input: an event runs its instruction, a PORTB operation its access, and with nothing delivered
the engine rests (log 3, log 8). -/
def Obligations.StepRunsNextInput : Prop :=
  ∀ s : State, s.cfg.wf = true →
    (∀ e rest, s.inbox = .event e :: rest → step s = exec e.toInstr { s with inbox := rest, appended := false }) ∧
    (∀ op rest, s.inbox = .portb op :: rest →
      step s = .next ({ s with inbox := rest, appended := false }.portbStep op)) ∧
    (s.inbox = [] → step s = .next { s with appended := false })

/-- When ON_TIMEOUT comes and the frame in the buffer decodes to a request, the step is that request's instruction, entered
with dstate Decoding and status Ok, between taking the event and the return to Idle (R93, R95, R110). -/
def Obligations.StepRunsDecodedRequest : Prop :=
  ∀ (s : State) (rest : List Input) (req : Request), s.cfg.wf = true → s.dstate = .idle →
    s.inbox = .event .onTimeout :: rest → decode s.cfg.slaveAddr s.frame = .ok req →
    ∃ t, exec req.toInstr { s with inbox := rest, appended := false, dstate := .decoding, status := .ok } = .next t ∧
      step s = .next { t with dstate := .idle, widx := 0, buf := [] }

/-- U2, U4 of 93_implementation_defined.md: "refuse the configuration" (log 6). That a record listed twice counts as two
blocks that overlap is this model's choice (log 22). -/
def Obligations.IllFormedConfigIsRefused : Prop :=
  ∀ s : State,
    (s.cfg.bufCap < 4 ∨ (∃ b ∈ s.cfg.blocks, b.length < 1 ∨ 64 < b.start + b.length) ∨
      (∃ (i j : Nat) (p q : Block), i < j ∧ s.cfg.blocks[i]? = some p ∧ s.cfg.blocks[j]? = some q ∧
        q.start < p.start + p.length ∧ p.start < q.start + q.length)) →
    step s = .refused .illFormedConfig

/-- U1, U6 of 93_implementation_defined.md: an event that begins before the previous step has ended is refused (log 5). -/
def Obligations.OverlappingEventIsRefused : Prop :=
  ∀ (s : State) (e : Event), s.dstate ≠ .idle → exec e.toInstr s = .refused .eventOverlap

/-! ### The Frame Assembler -/

/-- R90, R91 with R92 and R97 (decisions D7, D8, D20): the byte is stored at the write index while there is room, else
dropped; it is counted either way, and nothing else changes. -/
def Obligations.ReceiveByteStoresOrDrops : Prop :=
  ∀ (s : State) (b : Byte), s.dstate = .idle → s.buf.wf → ∃ t, exec (.rxByte b) s = .next t ∧
    (if s.widx < s.cfg.bufCap then
      (∀ i, t.buf.read i = if i = s.widx then b else s.buf.read i) ∧ t.widx = s.widx + 1 ∧ t.appended = true
    else t.buf = s.buf ∧ t.widx = s.widx ∧ t.appended = false) ∧
    t.rxCount = (if s.rxCount < 2 ^ s.cfg.ctrWidth - 1 then s.rxCount + 1 else s.rxCount) ∧
    { t with buf := s.buf, widx := s.widx, appended := s.appended, rxCount := s.rxCount } = s

/-- R98, for any number of bytes delivered after a timeout or a reset: the frame is the first BUF_CAP of them, in order, and
they bring about no reply. -/
def Obligations.FrameIsFirstBytesReceived : Prop :=
  ∀ (s : State) (e : Event) (bytes : List Byte), s.dstate = .idle → e = .onTimeout ∨ e = .reset →
    ∃ u t, exec e.toInstr s = .next u ∧ runEvents (e :: bytes.map Event.rxByte) s = .next t ∧
      t.frame = bytes.take s.cfg.bufCap ∧ t.sent = u.sent

/-- R94 (decisions D5, D14): fewer than four bytes are discarded; only the status tells. -/
def Obligations.RuntIsDiscarded : Prop :=
  ∀ s : State, s.dstate = .idle → s.widx < 4 →
    exec .onTimeout s = .next { s with
      status := if s.widx = 0 then .timedOut else .frameError, widx := 0, buf := [], appended := false }

/-- R95, R185 (decision D10): on every path the assembler is reset and the dispatcher Idle. -/
def Obligations.TimeoutAlwaysResetsAssembler : Prop :=
  ∀ s : State, s.dstate = .idle → ∃ t, exec .onTimeout s = .next t ∧
    t.widx = 0 ∧ (∀ i, t.buf.read i = 0x00#8) ∧ t.dstate = .idle ∧
    t.cfg = s.cfg ∧ t.rxCount = s.rxCount ∧ t.inbox = s.inbox

/-- R96: nothing but ON_TIMEOUT and RESET moves the write index back. -/
def Obligations.OnlyTimeoutAndResetAbandonFrame : Prop :=
  ∀ s t : State, step s = .next t → t.widx < s.widx →
    ∃ rest, s.inbox = .event .onTimeout :: rest ∨ s.inbox = .event .reset :: rest

/-! ### The CRC Engine -/

/-- R102, with the check as the engine makes it. -/
def Obligations.CrcCheckComparesTrailer : Prop :=
  ∀ f : Frame, 4 ≤ f.length →
    (crcOk f = true ↔
      (crc16 ((List.range (f.length - 2)).map fun i => f.getD i 0)).toNat =
        (f.getD (f.length - 2) 0).toNat + 256 * (f.getD (f.length - 1) 0).toNat)

/-- R104: what CRC_APPEND closed passes the check, and so does every frame an instruction or an event transmits. -/
def Obligations.CrcAcceptsWhatItClosed : Prop :=
  (∀ s : List Byte, crcOk (crcAppend s) = true ∧ (crcAppend s).length = s.length + 2) ∧
  (∀ (s t : State) (i : Instr) (reply : Frame), exec i s = .next t → t.sent = s.sent ++ [reply] → crcOk reply = true)

/-- R105, which the spec takes from general knowledge (its G2): the residue, and the check it may replace. -/
def Obligations.CrcResidueIsZero : Prop :=
  (∀ s : List Byte, crc16 (crcAppend s) = 0x0000#16) ∧
  (∀ f : Frame, 2 ≤ f.length → (crcOk f = true ↔ crc16 f = 0x0000#16))

/-! ### Decoding -/

/-- Words written out from the formats of 30_encoding.md and the vectors of 95_test_vectors.md. -/
def Obligations.SpecFramesDecode : Prop :=
  decode 0x01#8 [0x01#8, 0x03#8, 0x00#8, 0x0F#8, 0x00#8, 0x02#8, 0xF4#8, 0x08#8]
    = .ok (.readHoldingRegisters 0x01#8 (.fields 0x000F#16 0x0002#16 [])) ∧
  decode 0x01#8 [0x01#8, 0x06#8, 0x00#8, 0x10#8, 0xAB#8, 0xCD#8, 0x36#8, 0xAA#8]
    = .ok (.writeSingleRegister 0x01#8 (.fields 0x0010#16 0xABCD#16 [])) ∧
  decode 0x01#8 [0x01#8, 0x10#8, 0x00#8, 0x10#8, 0x00#8, 0x02#8, 0x04#8, 0x00#8, 0x0A#8, 0x01#8, 0x02#8, 0x52#8, 0xF0#8]
    = .ok (.writeMultipleRegisters 0x01#8 (.fields 0x0010#16 0x0002#16 0x04#8 [0x00#8, 0x0A#8, 0x01#8, 0x02#8])) ∧
  decode 0x01#8 [0x01#8, 0x83#8, 0x41#8, 0x81#8] = .ok (.illegalFunction 0x01#8 0x83#8 []) ∧
  decode 0x01#8 [0x02#8, 0x03#8, 0x00#8, 0x00#8, 0x00#8, 0x02#8, 0xC4#8, 0x38#8] = .error .addressMismatch ∧
  decode 0x01#8 [0x01#8, 0x03#8, 0x00#8, 0x00#8, 0x00#8, 0x02#8, 0x0B#8, 0xC4#8] = .error .crcError

/-- The accepted frames are those that decode; byte 1 alone selects the request, and every value selects one (R114). A code
other than the three is answered with exception code 0x01 (R72) and nothing else: that PORTB has no point inside that request is
this model's choice (log 4), and the saturating count is the spec's decision D8 (log 10). -/
def Obligations.FunctionByteSelectsRequest : Prop :=
  ∀ (c : Config) (f : Frame), ((∃ req, decode c.slaveAddr f = .ok req) ↔ accepted c f) ∧
    ∀ req, decode c.slaveAddr f = .ok req →
      ((∃ addr op, req = .readHoldingRegisters addr op) ↔ f.getD 1 0 = 0x03#8) ∧
      ((∃ addr op, req = .writeSingleRegister addr op) ↔ f.getD 1 0 = 0x06#8) ∧
      ((∃ addr op, req = .writeMultipleRegisters addr op) ↔ f.getD 1 0 = 0x10#8) ∧
      ((∃ addr fn p, req = .illegalFunction addr fn p) ↔ f.getD 1 0 ∉ [0x03#8, 0x06#8, 0x10#8]) ∧
      (f.getD 1 0 ∉ [0x03#8, 0x06#8, 0x10#8] →
        ∀ s, onlyReplies s req.toInstr [f.getD 0 0, f.getD 1 0 ||| 0x80#8, 0x01#8])

/-- R61: the fields of each request stand at the offsets the rule gives, the 16-bit ones big-endian. -/
def Obligations.RequestFieldsStandAtTheirOffsets : Prop :=
  ∀ (c : Config) (f : Frame), accepted c f →
    ((f.getD 1 0 = 0x03#8 ∨ f.getD 1 0 = 0x06#8) → 8 ≤ f.length → ∃ first second ignored,
      decode c.slaveAddr f = .ok (if f.getD 1 0 = 0x03#8 then .readHoldingRegisters (f.getD 0 0) (.fields first second ignored)
        else .writeSingleRegister (f.getD 0 0) (.fields first second ignored)) ∧
      first.toNat = (f.getD 2 0).toNat * 256 + (f.getD 3 0).toNat ∧
      second.toNat = (f.getD 4 0).toNat * 256 + (f.getD 5 0).toNat ∧
      ignored = (f.drop 6).take (f.length - 8)) ∧
    (f.getD 1 0 = 0x10#8 → f.length = 9 + (f.getD 6 0).toNat → ∃ start quantity data,
      decode c.slaveAddr f = .ok (.writeMultipleRegisters (f.getD 0 0) (.fields start quantity (f.getD 6 0) data)) ∧
      start.toNat = (f.getD 2 0).toNat * 256 + (f.getD 3 0).toNat ∧
      quantity.toNat = (f.getD 4 0).toNat * 256 + (f.getD 5 0).toNat ∧
      ∀ i, 2 * i + 1 < (f.getD 6 0).toNat →
        ((wordsOf data).getD i 0).toNat = (f.getD (7 + 2 * i) 0).toNat * 256 + (f.getD (8 + 2 * i) 0).toNat)

/-- Decode and encode agree, requests: every well-formed request comes back from its frame, every operand at every value. -/
def Obligations.EncodedRequestDecodesToItself : Prop :=
  ∀ (c : Config) (req : Request), req.wf c = true → decode c.slaveAddr (encode req.toInstr) = .ok req

/-- The other direction: a frame that decodes is the encoding of what it decodes to, so each frame has one meaning, and
what the decoder answers from a frame that fits the buffer is well formed. -/
def Obligations.DecodedFrameEncodesToItself : Prop :=
  ∀ (c : Config) (f : Frame) (req : Request), decode c.slaveAddr f = .ok req →
    encode req.toInstr = f ∧ (f.length ≤ c.bufCap → req.wf c = true)

/-- Decode and encode agree, replies (R67 to R70): every well-formed reply is read back from its frame. The reply decoder
is the model's own (log 15). -/
def Obligations.EncodedReplyReadsBackAsItself : Prop :=
  ∀ (c : Config) (addr : Byte),
    (∀ values, (Instr.replyRhr addr values).wf c = true →
      decodeReply (encode (.replyRhr addr values)) = .ok (.replyRhr addr values)) ∧
    (∀ a v, (Instr.replyWsr addr a v).wf c = true →
      decodeReply (encode (.replyWsr addr a v)) = .ok (.replyWsr addr a v)) ∧
    (∀ a q, (Instr.replyWmr addr a q).wf c = true →
      decodeReply (encode (.replyWmr addr a q)) = .ok (.replyWmr addr a q)) ∧
    (∀ fn code, (Instr.replyException addr fn code).wf c = true →
      decodeReply (encode (.replyException addr fn code)) = .ok (.replyException addr fn code))

/-! ### The Register Store and the validator -/

/-- R150 and R151: the defensive read and write, on any natural address; a cell of a validated range is never outside. -/
def Obligations.StoreReadsWhatWasWritten : Prop :=
  ∀ (s : State) (a b : Nat) (v : Word),
    (∀ h : a < 64, s.memRead a = s.x[a]) ∧ (64 ≤ a → s.memRead a = 0x0000#16) ∧
    (a < 64 → (s.memWrite a v).memRead a = v) ∧ (64 ≤ a → s.memWrite a v = s) ∧
    (b ≠ a → (s.memWrite a v).memRead b = s.memRead b) ∧
    { s.memWrite a v with x := s.x } = s ∧
    (∀ q i, s.validRange a q = true → i < q → a + i ≤ 63)

/-- The three conditions of R152; in an admissible configuration exactly one block, at one place of the table, satisfies (3),
and (2) follows from (3); and on a false result the caller raises IllegalDataAddress (0x02) and does nothing else, for
function 0x10 when the byteCount check before it has passed. This model's choices: that an admissible table lists no record
twice, on which "one place" rests (log 22), and that PORTB has no point inside a request that raises, on which "nothing else"
rests (log 4). The count's saturation is the spec's decision D8 (log 10). -/
def Obligations.ValidRangeLiesInOneBlock : Prop :=
  (∀ (c : Config) (a q : Nat),
    (validRange c.blocks a q = true ↔
      1 ≤ q ∧ a + q ≤ 64 ∧ ∃ b ∈ c.blocks, b.start ≤ a ∧ a + q ≤ b.start + b.length) ∧
    (c.wf = true → validRange c.blocks a q = true →
      ∃! i : Nat, ∃ b : Block, c.blocks[i]? = some b ∧ b.start ≤ a ∧ a + q ≤ b.start + b.length) ∧
    (c.wf = true → ∀ b ∈ c.blocks, b.start ≤ a → a + q ≤ b.start + b.length → a + q ≤ 64)) ∧
  (∀ (s : State) (addr : Byte) (a second : Word),
    (s.validRange a.toNat second.toNat = false → ∀ ignored,
      onlyReplies s (.readHoldingRegisters addr (.fields a second ignored)) [addr, 0x83#8, 0x02#8]) ∧
    (s.validRange a.toNat 1 = false → ∀ ignored,
      onlyReplies s (.writeSingleRegister addr (.fields a second ignored)) [addr, 0x86#8, 0x02#8]) ∧
    (s.validRange a.toNat second.toNat = false → ∀ (byteCount : Byte) data, byteCount.toNat = 2 * second.toNat →
      onlyReplies s (.writeMultipleRegisters addr (.fields a second byteCount data)) [addr, 0x90#8, 0x02#8]))

/-- For function 0x06 the range of one register is valid exactly when its cell belongs to some block, and then it is a cell of
the store (R153) and the request is answered by its echo (R131); otherwise by exception 0x02 and nothing else: that PORTB has
no point inside a request that raises is this model's choice (log 4), and the saturating count the spec's decision D8 (log 10). -/
def Obligations.SingleRegisterIsValidInABlock : Prop :=
  ∀ (s : State) (addr : Byte) (a v : Word) (ignored : List Byte), s.cfg.wf = true →
    ((∃ b ∈ s.cfg.blocks, b.start ≤ a.toNat ∧ a.toNat < b.start + b.length) →
      s.validRange a.toNat 1 = true ∧ a.toNat ≤ 63 ∧
      ∃ t, exec (.writeSingleRegister addr (.fields a v ignored)) s = .next t ∧
        t.sent = s.sent ++ [crcAppend [addr, 0x06#8, hi a, lo a, hi v, lo v]]) ∧
    ((∀ b ∈ s.cfg.blocks, ¬ (b.start ≤ a.toNat ∧ a.toNat < b.start + b.length)) →
      s.validRange a.toNat 1 = false ∧
      onlyReplies s (.writeSingleRegister addr (.fields a v ignored)) [addr, 0x86#8, 0x02#8])

/-- R155: PORTB reads and writes any cell, unchecked, and touches nothing else of the engine. The output `appended` of the
step before (log 8) is left aside. -/
def Obligations.PortbAccessesCellsOnly : Prop :=
  ∀ (s : State) (rest : List Input) (a : Nat) (v : Word), s.cfg.wf = true →
    (s.inbox = .portb (.read a) :: rest → ∃ t, step s = .next t ∧
      { t with appended := s.appended } =
        { s with inbox := rest, portbSeen := s.portbSeen ++ [if h : a < 64 then s.x[a] else 0x0000#16] }) ∧
    (s.inbox = .portb (.write a v) :: rest → ∃ t, step s = .next t ∧
      (∀ b, t.memRead b = if b = a ∧ a < 64 then v else s.memRead b) ∧
      { t with x := s.x, appended := s.appended } = { s with inbox := rest })

/-- R52 (decision D12): under between_events PORTB does nothing at a point inside a request; under between_cells it does
there, in order, the operations the schedule gives that point, and the next point gets the next list. -/
def Obligations.PortbActsInsideRequestsByGranularity : Prop :=
  ∀ s : State,
    (s.cfg.granularity = .betweenEvents → s.portbPoint = s) ∧
    (s.cfg.granularity = .betweenCells → s.portbSchedule = [] → s.portbPoint = s) ∧
    (∀ ops rest, s.cfg.granularity = .betweenCells → s.portbSchedule = ops :: rest →
      s.portbPoint = ops.foldl State.portbStep { s with portbSchedule := rest })

/-! ### The requests -/

/-- R130 for a valid range, whatever PORTB does: value `i` is the one the cell holds at its read, ascending; the reply is
`[address, 0x03, 2q, values]` and its CRC; besides the reply only PORTB's own work can be seen. -/
def Obligations.ReadRepliesWithCellsAtTheirReads : Prop :=
  ∀ (s : State) (addr : Byte) (a q : Word) (ignored : List Byte), s.validRange a.toNat q.toNat = true →
    exec (.readHoldingRegisters addr (.fields a q ignored)) s = .next { s.afterPoints (q.toNat + 1) with
      dstate := .responding
      sent := s.sent ++ [crcAppend ([addr, 0x03#8, BitVec.ofNat 8 (2 * q.toNat)] ++
        (List.range q.toNat).flatMap fun i =>
          [hi ((s.afterPoints (i + 1)).memRead (a.toNat + i)), lo ((s.afterPoints (i + 1)).memRead (a.toNat + i))])]
      txCount := satInc s.cfg.ctrWidth s.txCount }

/-- R130 in a quiet state: the reply carries the store's current values, and nothing but the reply, the counter and dstate
changes: no cell, no status, no byte of the frame. -/
def Obligations.QuietReadRepliesWithCurrentValues : Prop :=
  ∀ (s : State) (addr : Byte) (a q : Word) (ignored : List Byte), s.portbQuiet →
    s.validRange a.toNat q.toNat = true →
    exec (.readHoldingRegisters addr (.fields a q ignored)) s = .next { s with
      dstate := .responding
      sent := s.sent ++ [crcAppend ([addr, 0x03#8, BitVec.ofNat 8 (2 * q.toNat)] ++
        bytesOf ((List.range q.toNat).map fun i => s.memRead (a.toNat + i)))]
      txCount := satInc s.cfg.ctrWidth s.txCount }

/-- R131 for a valid address, whatever PORTB does: PORTB's work, the one write, PORTB's work, then the echo. -/
def Obligations.WriteSingleWritesBetweenPoints : Prop :=
  ∀ (s : State) (addr : Byte) (a v : Word) (ignored : List Byte), s.validRange a.toNat 1 = true →
    exec (.writeSingleRegister addr (.fields a v ignored)) s = .next { (s.portbPoint.memWrite a.toNat v).portbPoint with
      dstate := .responding
      sent := s.sent ++ [crcAppend [addr, 0x06#8, hi a, lo a, hi v, lo v]]
      txCount := satInc s.cfg.ctrWidth s.txCount }

/-- R131 in a quiet state: one cell takes the value, every other cell and everything else stays. -/
def Obligations.QuietWriteSingleChangesOneCell : Prop :=
  ∀ (s : State) (addr : Byte) (a v : Word) (ignored : List Byte), s.portbQuiet → s.validRange a.toNat 1 = true →
    ∃ t, exec (.writeSingleRegister addr (.fields a v ignored)) s = .next t ∧
      (∀ b, t.memRead b = if b = a.toNat then v else s.memRead b) ∧
      { t with x := s.x } = { s with
        dstate := .responding
        sent := s.sent ++ [crcAppend [addr, 0x06#8, hi a, lo a, hi v, lo v]]
        txCount := satInc s.cfg.ctrWidth s.txCount }

/-- R132 for an accepted request, whatever PORTB does: the writes ascending, PORTB's work before each and after the last. -/
def Obligations.WriteMultipleWritesBetweenPoints : Prop :=
  ∀ (s : State) (addr : Byte) (a q : Word) (byteCount : Byte) (data : List Byte),
    data.length = byteCount.toNat → byteCount.toNat = 2 * q.toNat → s.validRange a.toNat q.toNat = true →
    exec (.writeMultipleRegisters addr (.fields a q byteCount data)) s = .next
      { ((List.range q.toNat).foldl (fun u i =>
            u.portbPoint.memWrite (a.toNat + i) (be16 (data.getD (2 * i) 0) (data.getD (2 * i + 1) 0))) s).portbPoint with
        dstate := .responding
        sent := s.sent ++ [crcAppend [addr, 0x10#8, hi a, lo a, hi q, lo q]]
        txCount := satInc s.cfg.ctrWidth s.txCount }

/-- R132 in a quiet state: cell `a + i` takes value `i` for `i < q`, every other cell and everything else stays. -/
def Obligations.QuietWriteMultipleChangesItsRun : Prop :=
  ∀ (s : State) (addr : Byte) (a q : Word) (byteCount : Byte) (data : List Byte), s.portbQuiet →
    data.length = byteCount.toNat → byteCount.toNat = 2 * q.toNat → s.validRange a.toNat q.toNat = true →
    ∃ t, exec (.writeMultipleRegisters addr (.fields a q byteCount data)) s = .next t ∧
      (∀ b, t.memRead b = if a.toNat ≤ b ∧ b < a.toNat + q.toNat then
        be16 (data.getD (2 * (b - a.toNat)) 0) (data.getD (2 * (b - a.toNat) + 1) 0) else s.memRead b) ∧
      { t with x := s.x } = { s with
        dstate := .responding
        sent := s.sent ++ [crcAppend [addr, 0x10#8, hi a, lo a, hi q, lo q]]
        txCount := satInc s.cfg.ctrWidth s.txCount }

/-- R132: a byteCount other than twice the quantity, over the naturals, is answered with code 0x03, before the range is
looked at. That PORTB has no point inside such a request is this model's choice (log 4). -/
def Obligations.ByteCountMismatchRaisesIllegalDataValue : Prop :=
  ∀ (s : State) (addr : Byte) (a q : Word) (byteCount : Byte) (data : List Byte), byteCount.toNat ≠ 2 * q.toNat →
    exec (.writeMultipleRegisters addr (.fields a q byteCount data)) s = .next { s with
      dstate := .responding, sent := s.sent ++ [crcAppend [addr, 0x90#8, 0x03#8]]
      txCount := satInc s.cfg.ctrWidth s.txCount }

/-- R117: a request whose length its function does not accept is answered with code 0x03 and the store is unchanged. That
the status is FrameError is the spec's decision D5 (log 9). That PORTB has no point inside such a request is this model's
choice (log 4). -/
def Obligations.BadLengthRaisesIllegalDataValue : Prop :=
  ∀ (s : State) (addr : Byte) (payload : List Byte),
    (∀ req fn, (req, fn) ∈ [(Instr.readHoldingRegisters addr (.short payload), 0x83#8),
        (Instr.writeSingleRegister addr (.short payload), 0x86#8),
        (Instr.writeMultipleRegisters addr (.badLength payload), 0x90#8)] →
      exec req s = .next { s with
        status := .frameError, dstate := .responding, sent := s.sent ++ [crcAppend [addr, fn, 0x03#8]]
        txCount := satInc s.cfg.ctrWidth s.txCount })

/-- R133: any other function code is answered with code 0x01; the payload is not looked at and no cell is touched. That
PORTB has no point inside such a request is this model's choice (log 4). -/
def Obligations.UnknownFunctionRaisesIllegalFunction : Prop :=
  ∀ (s : State) (addr fn : Byte) (payload : List Byte),
    exec (.illegalFunction addr fn payload) s = .next { s with
      dstate := .responding, sent := s.sent ++ [crcAppend [addr, fn ||| 0x80#8, 0x01#8]]
      txCount := satInc s.cfg.ctrWidth s.txCount }

/-- A request that is answered with an exception, a reply whose byte 1 has bit 7 set, leaves the store as it was: the engine
writes no cell (R137). That PORTB writes none inside it either, whatever it is scheduled to do, is this model's choice: a
request that raises has no point of R52 (log 4); R157 says nothing of PORTB. -/
def Obligations.ExceptionReplyLeavesStoreUnmodified : Prop :=
  ∀ (s t : State) (req : Request) (reply : Frame), exec req.toInstr s = .next t → t.sent = s.sent ++ [reply] →
    (reply.getD 1 0).getLsbD 7 = true → t.x = s.x ∧ reply.length = 5

/-- R116 with R184, R170 (decisions D5, D13 for status and dstate): every request, in every form and every state, is
answered with exactly one frame; its status is Ok's or FrameError, and all that is not the store or PORTB's own stays. -/
def Obligations.EveryRequestIsAnsweredOnce : Prop :=
  ∀ (s : State) (req : Request), ∃ t reply, exec req.toInstr s = .next t ∧ t.sent = s.sent ++ [reply] ∧
    t.dstate = .responding ∧ t.txCount = satInc s.cfg.ctrWidth s.txCount ∧
    (t.status = s.status ∨ t.status = .frameError) ∧
    t.cfg = s.cfg ∧ t.buf = s.buf ∧ t.widx = s.widx ∧ t.rxCount = s.rxCount ∧ t.appended = s.appended ∧ t.inbox = s.inbox

/-! ### The replies -/

/-- The normal replies byte by byte, in the formats of R67 to R69, with the CRC low byte first. That a reply row is an
instruction, which transmits its frame, counts it (R170) and does nothing else, is this model's choice (log 15). -/
def Obligations.NormalRepliesHaveTheirFormats : Prop :=
  ∀ (s : State) (addr : Byte) (values : List Word) (a v : Word),
    onlyReplies s (.replyRhr addr values) ([addr, 0x03#8, BitVec.ofNat 8 (2 * values.length)] ++
      (List.range values.length).flatMap fun i => [hi (values.getD i 0), lo (values.getD i 0)]) ∧
    (crcAppend (body (.replyRhr addr values))).length = 5 + 2 * values.length ∧
    onlyReplies s (.replyWsr addr a v) [addr, 0x06#8, hi a, lo a, hi v, lo v] ∧
    onlyReplies s (.replyWmr addr a v) [addr, 0x10#8, hi a, lo a, hi v, lo v]

/-- The exception reply in the format of R70, for every function byte; bit 7 is set whether or not it was. That the row is an
instruction, which transmits its frame, counts it (R171) and does nothing else, is this model's choice (log 15). -/
def Obligations.ExceptionReplyHasItsFormat : Prop :=
  ∀ (s : State) (addr fn : Byte) (code : ExceptionCode),
    onlyReplies s (.replyException addr fn code) [addr, fn ||| 0x80#8, code.byte] ∧
    (let reply := crcAppend [addr, fn ||| 0x80#8, code.byte]
     reply.length = 5 ∧ reply.getD 0 0 = addr ∧ (reply.getD 1 0).toNat = fn.toNat % 128 + 128 ∧
     (reply.getD 2 0).toNat =
       (match code with | .illegalFunction => 1 | .illegalDataAddress => 2 | .illegalDataValue => 3) ∧
     crc16 (reply.take 3) = be16 (reply.getD 4 0) (reply.getD 3 0))

/-- R68 and R69 from the frame's side: on an accepted frame whose write request succeeds, the reply's first six bytes are the
request's first six bytes, and two CRC bytes follow. -/
def Obligations.WriteReplyEchoesRequestBody : Prop :=
  ∀ (s : State) (req : Request) (t : State) (reply : Frame),
    decode s.cfg.slaveAddr s.frame = .ok req → exec req.toInstr s = .next t → t.sent = s.sent ++ [reply] →
    (reply.getD 1 0 = 0x06#8 ∨ reply.getD 1 0 = 0x10#8) →
    reply = crcAppend (s.frame.take 6) ∧ reply.length = 8

/-- R174: no reply is shorter than 5 or longer than 133 bytes; an exception reply has 5; a read of 64 registers can be
answered, with 133; with the reference block table no reply is longer than 37, and one of 37 and one of 5 can come. -/
def Obligations.ReplyLengthIsBounded : Prop :=
  (∀ (s t : State) (req : Request) (reply : Frame), s.cfg.wf = true → exec req.toInstr s = .next t →
    t.sent = s.sent ++ [reply] →
    5 ≤ reply.length ∧ reply.length ≤ 133 ∧ ((reply.getD 1 0).getLsbD 7 = true → reply.length = 5) ∧
    (s.cfg.blocks = Config.reference.blocks → reply.length ≤ 37)) ∧
  (∃ (s t : State) (addr : Byte) (reply : Frame), s.cfg.wf = true ∧
    exec (.readHoldingRegisters addr (.fields 0x0000#16 0x0040#16 [])) s = .next t ∧ t.sent = s.sent ++ [reply] ∧
    reply.length = 133) ∧
  (∃ (s t : State) (addr : Byte) (a q : Word) (reply : Frame), s.cfg.blocks = Config.reference.blocks ∧
    exec (.readHoldingRegisters addr (.fields a q [])) s = .next t ∧ t.sent = s.sent ++ [reply] ∧ reply.length = 37) ∧
  (∃ (s t : State) (req : Request) (reply : Frame), s.cfg.blocks = Config.reference.blocks ∧
    exec req.toInstr s = .next t ∧ t.sent = s.sent ++ [reply] ∧ reply.length = 5)

/-- R104 with R138 (decision D18): every reply passes the engine's own check, carries the request's address byte, and its
byte 1 is the request's function code, with bit 7 set or not. -/
def Obligations.ReplyIsAuthenticAndAddressed : Prop :=
  ∀ (s t : State) (req : Request) (reply : Frame), decode s.cfg.slaveAddr s.frame = .ok req →
    exec req.toInstr s = .next t → t.sent = s.sent ++ [reply] →
    crcOk reply = true ∧ reply.getD 0 0 = s.cfg.slaveAddr ∧
    (reply.getD 1 0 = s.frame.getD 1 0 ∨ reply.getD 1 0 = s.frame.getD 1 0 ||| 0x80#8)

/-! ### The dispatcher -/

/-- R112 (decision D5 for the status): a frame for another slave leaves only its status. -/
def Obligations.OtherAddressIsDiscarded : Prop :=
  ∀ s : State, s.dstate = .idle → 4 ≤ s.widx → s.buf.read 0 ≠ s.cfg.slaveAddr →
    exec .onTimeout s = .next { s with status := .addressMismatch, widx := 0, buf := [], appended := false }

/-- R113: a frame for this engine whose CRC does not match is discarded: nothing is transmitted, no cell is touched, and only
the status tells. What the return to the assembler resets (R95) and the output `appended` are left aside. -/
def Obligations.CorruptFrameIsDiscarded : Prop :=
  ∀ s : State, s.dstate = .idle → 4 ≤ s.widx → s.buf.read 0 = s.cfg.slaveAddr →
    (crc16 ((List.range (s.widx - 2)).map s.buf.read)).toNat ≠
      (s.buf.read (s.widx - 2)).toNat + 256 * (s.buf.read (s.widx - 1)).toNat →
    ∃ t, exec .onTimeout s = .next t ∧ t.status = .crcError ∧
      { t with status := s.status, widx := s.widx, buf := s.buf, appended := s.appended } = s

/-- R115: the checks in their order, on the bytes of the frame; the first that fails decides the reply, and when none fails
one normal reply is sent. -/
def Obligations.FirstFailedCheckDecidesReply : Prop :=
  ∀ s : State, s.dstate = .idle → ∃ t, exec .onTimeout s = .next t ∧
    let len := s.widx
    let b := fun i => s.buf.read i
    let a := (b 2).toNat * 256 + (b 3).toNat
    let q := if b 1 = 0x06#8 then 1 else (b 4).toNat * 256 + (b 5).toNat
    let raised := fun code : Byte => s.sent ++ [crcAppend [b 0, b 1 ||| 0x80#8, code]]
    if len < 4 then t.sent = s.sent
    else if b 0 ≠ s.cfg.slaveAddr then t.sent = s.sent
    else if crc16 ((List.range (len - 2)).map b) ≠ be16 (b (len - 1)) (b (len - 2)) then t.sent = s.sent
    else if b 1 ∉ [0x03#8, 0x06#8, 0x10#8] then t.sent = raised 0x01#8
    else if (if b 1 = 0x10#8 then len < 9 ∨ len ≠ 9 + (b 6).toNat else len < 8) then t.sent = raised 0x03#8
    else if b 1 = 0x10#8 ∧ (b 6).toNat ≠ 2 * q then t.sent = raised 0x03#8
    else if ¬ (1 ≤ q ∧ a + q ≤ 64 ∧ ∃ B ∈ s.cfg.blocks, B.start ≤ a ∧ a + q ≤ B.start + B.length) then
      t.sent = raised 0x02#8
    else ∃ payload, t.sent = s.sent ++ [crcAppend (b 0 :: b 1 :: payload)]

/-- R130 to R133 as one statement about the store, in a quiet state: which cells a timeout writes, and with what, read off
the bytes of the frame; every other cell reads as before. -/
def Obligations.TimeoutWritesExactlyTheRequestedCells : Prop :=
  ∀ s : State, s.dstate = .idle → s.portbQuiet → ∃ t, exec .onTimeout s = .next t ∧
    ∀ c,
      let b := fun i => s.buf.read i
      let a := (b 2).toNat * 256 + (b 3).toNat
      let q := (b 4).toNat * 256 + (b 5).toNat
      let inBlock := fun n => ∃ B ∈ s.cfg.blocks, B.start ≤ a ∧ a + n ≤ B.start + B.length
      (accepted s.cfg s.frame → b 1 = 0x06#8 → 8 ≤ s.widx → a + 1 ≤ 64 → inBlock 1 → c = a →
        t.memRead c = be16 (b 4) (b 5)) ∧
      (accepted s.cfg s.frame → b 1 = 0x10#8 → s.widx = 9 + (b 6).toNat → (b 6).toNat = 2 * q → a + q ≤ 64 →
        inBlock q → a ≤ c → c < a + q → t.memRead c = be16 (b (7 + 2 * (c - a))) (b (8 + 2 * (c - a)))) ∧
      (¬ (accepted s.cfg s.frame ∧ b 1 = 0x06#8 ∧ 8 ≤ s.widx ∧ a + 1 ≤ 64 ∧ inBlock 1 ∧ c = a) →
        ¬ (accepted s.cfg s.frame ∧ b 1 = 0x10#8 ∧ s.widx = 9 + (b 6).toNat ∧ (b 6).toNat = 2 * q ∧ a + q ≤ 64 ∧
          inBlock q ∧ a ≤ c ∧ c < a + q) →
        t.memRead c = s.memRead c)

/-- The whole path: the bytes of a well-formed request delivered one by one to an idle engine with an empty buffer, then the
timeout: exactly that request's instruction runs, the bytes are counted, and the engine is Idle again. -/
def Obligations.DeliveredRequestIsServed : Prop :=
  ∀ (s : State) (req : Request), s.dstate = .idle → s.buf.wf → s.widx = 0 → req.wf s.cfg = true →
    ∃ t rx, exec req.toInstr { s with appended := false, dstate := .decoding, status := .ok } = .next t ∧
      runEvents ((encode req.toInstr).map Event.rxByte ++ [.onTimeout]) s =
        .next { t with dstate := .idle, widx := 0, buf := [], rxCount := rx } ∧
      (s.rxCount + (encode req.toInstr).length < 2 ^ s.cfg.ctrWidth → rx = s.rxCount + (encode req.toInstr).length)

/-- What a frame brings about depends on the configuration, the frame, the store and PORTB's schedule (log 4) alone; not on
earlier frames, the status, the counters, or bytes of the buffer at or above the write index; so a frame that is accepted is
answered each time it comes. R118 lets only reads depend on the store; here equal stores are assumed for every frame, since
the store left is compared. -/
def Obligations.OutcomeDependsOnFrameAndStoreOnly : Prop :=
  ∀ s s' : State, s.dstate = .idle → s'.dstate = .idle → s.cfg = s'.cfg → s.frame = s'.frame → s.x = s'.x →
    s.portbSchedule = s'.portbSchedule →
    ∃ t t' out, exec .onTimeout s = .next t ∧ exec .onTimeout s' = .next t' ∧
      t.sent = s.sent ++ out ∧ t'.sent = s'.sent ++ out ∧ (out.length = 1 ↔ accepted s.cfg s.frame) ∧ out.length ≤ 1 ∧
      t.x = t'.x ∧ t.status = t'.status

/-- R119: status and counters change no outcome: two states that differ in them only take the same step and differ in them
only afterwards. -/
def Obligations.StatusAndCountersAreNeverRead : Prop :=
  ∀ (s : State) (st : Status) (rx tx : Nat),
    let s' := { s with status := st, rxCount := rx, txCount := tx }
    (∀ t, step s = .next t → ∃ st' rx' tx', step s' = .next { t with status := st', rxCount := rx', txCount := tx' }) ∧
    (∀ r, step s = .refused r ↔ step s' = .refused r)

/-- R220 with R131: a write request repeated is applied again with the same result and the same reply. -/
def Obligations.RepeatedRequestGivesTheSameResult : Prop :=
  ∀ (s t u : State) (req : Request), s.portbQuiet → req.toInstr.wf s.cfg = true →
    exec req.toInstr s = .next t → exec req.toInstr t = .next u →
    u.x = t.x ∧ ∃ reply, t.sent = s.sent ++ [reply] ∧ u.sent = t.sent ++ [reply]

/-- R54 (b) (decision D27): a read that follows an accepted write of the same cells, with PORTB quiet, returns what was
written, byte for byte. -/
def Obligations.ReadReturnsWhatWasWritten : Prop :=
  ∀ (s t : State) (addr : Byte) (a q : Word) (byteCount : Byte) (data ignored : List Byte), s.portbQuiet →
    data.length = byteCount.toNat → byteCount.toNat = 2 * q.toNat → s.validRange a.toNat q.toNat = true →
    exec (.writeMultipleRegisters addr (.fields a q byteCount data)) s = .next t →
    ∃ u, exec (.readHoldingRegisters addr (.fields a q ignored)) t = .next u ∧
      u.sent = t.sent ++ [crcAppend (addr :: 0x03#8 :: byteCount :: data)] ∧ u.x = t.x

/-! ### Every step -/

/-- The invariant at reset. That the configuration there is admissible rests on this model's choice of it (log 1); the values
of buffer and counters are the spec's decisions D10 and D16 (log 2). -/
def Obligations.ResetMeetsInvariant : Prop := State.reset.Inv

/-- R13, R14, R17, R18 and the model's canonical buffer, as one invariant that every step keeps: the configuration stays
admissible, the dispatcher is Idle at every event boundary, the write index stays in 0 to BUF_CAP, the buffer holds nothing at
or above it, the counters stay in their width. -/
def Obligations.StepKeepsInvariant : Prop :=
  ∀ s t : State, s.Inv → step s = .next t → t.Inv

/-- R7: a step is total: where the invariant holds, no step faults or is refused. -/
def Obligations.EveryStepGoesOn : Prop :=
  ∀ s : State, s.Inv → ∃ t, step s = .next t ∧ t.Inv

/-- R19: no event and no request changes the configuration. -/
def Obligations.ConfigurationNeverChanges : Prop :=
  ∀ (s t : State) (i : Instr), (step s = .next t ∨ exec i s = .next t) → t.cfg = s.cfg

/-- R175: the engine never transmits on its own initiative: a step transmits at most one frame, and only when its input is
ON_TIMEOUT and the frame in the buffer is an accepted one. -/
def Obligations.EveryReplyAnswersAnAcceptedFrame : Prop :=
  ∀ s t : State, step s = .next t → t.sent = s.sent ∨
    ∃ rest reply, s.inbox = .event .onTimeout :: rest ∧ accepted s.cfg s.frame ∧ t.sent = s.sent ++ [reply]

/-- R172: the transmitted-frame count goes up, saturating, with each frame forwarded and with nothing else. RESET, which
zeroes it, is set apart. -/
def Obligations.TxCountCountsForwardedFrames : Prop :=
  ∀ s t : State, step s = .next t → (∀ rest, s.inbox ≠ .event .reset :: rest) →
    (t.sent = s.sent → t.txCount = s.txCount) ∧
    (∀ reply, t.sent = s.sent ++ [reply] →
      t.txCount = if s.txCount < 2 ^ s.cfg.ctrWidth - 1 then s.txCount + 1 else s.txCount)

/-- R48, R50: with PORTB quiet, no event but RESET changes a cell that belongs to no declared block. -/
def Obligations.CellsOutsideBlocksAreNeverWritten : Prop :=
  ∀ (s t : State) (e : Event) (rest : List Input) (a : Nat), s.portbQuiet → s.inbox = .event e :: rest → e ≠ .reset →
    step s = .next t → (∀ b ∈ s.cfg.blocks, ¬ (b.start ≤ a ∧ a < b.start + b.length)) →
    t.memRead a = s.memRead a
end

