-- ==== Sys2Proof/Laws/Bytes.lean ====
section
/-! SUPPORT. Byte order, byte lists and the CRC's frame: what the codec rests on. -/

namespace Sys2Proof

theorem hi_toNat (v : Word) : (hi v).toNat = v.toNat / 256 := by
  have := v.isLt
  simp only [hi, BitVec.extractLsb'_toNat, Nat.shiftRight_eq_div_pow]
  omega

theorem lo_toNat (v : Word) : (lo v).toNat = v.toNat % 256 := by
  simp [lo, BitVec.extractLsb'_toNat]

theorem be16_toNat (h l : Byte) : (be16 h l).toNat = h.toNat * 256 + l.toNat := by
  have := h.isLt; have := l.isLt
  simp only [be16, BitVec.toNat_ofNat]
  omega

/-- R41: a value sent as `hi` then `lo` is read back as itself. -/
@[simp] theorem be16_hi_lo (v : Word) : be16 (hi v) (lo v) = v := by
  apply BitVec.eq_of_toNat_eq
  rw [be16_toNat, hi_toNat, lo_toNat]
  omega

@[simp] theorem hi_be16 (h l : Byte) : hi (be16 h l) = h := by
  apply BitVec.eq_of_toNat_eq
  have := l.isLt
  rw [hi_toNat, be16_toNat]
  omega

@[simp] theorem lo_be16 (h l : Byte) : lo (be16 h l) = l := by
  apply BitVec.eq_of_toNat_eq
  have := l.isLt
  rw [lo_toNat, be16_toNat]
  omega

@[simp] theorem bytesOf_nil : bytesOf [] = [] := rfl

@[simp] theorem bytesOf_cons (v : Word) (vs : List Word) : bytesOf (v :: vs) = hi v :: lo v :: bytesOf vs := rfl

@[simp] theorem bytesOf_length (vs : List Word) : (bytesOf vs).length = 2 * vs.length := by
  induction vs with
  | nil => rfl
  | cons v vs ih => simp [ih]; omega

@[simp] theorem wordsOf_bytesOf (vs : List Word) : wordsOf (bytesOf vs) = vs := by
  induction vs with
  | nil => rfl
  | cons v vs ih => simp [wordsOf, ih]

/-- An even number of bytes comes back from its fields. -/
theorem bytesOf_wordsOf : ∀ (data : List Byte) (n : Nat), data.length = 2 * n → bytesOf (wordsOf data) = data
  | [], _, _ => rfl
  | [_], n, h => by simp only [List.length_cons, List.length_nil] at h; omega
  | h :: l :: rest, n, hl => by
    simp only [wordsOf, bytesOf_cons, hi_be16, lo_be16]
    rw [bytesOf_wordsOf rest (n - 1) (by simp only [List.length_cons] at hl; omega)]

/-- Value `i` of a byte list stands at bytes `2i` and `2i + 1` (R61). -/
theorem wordsOf_getElem? : ∀ (data : List Byte) (i : Nat), 2 * i + 1 < data.length →
    (wordsOf data)[i]? = some (be16 (data.getD (2 * i) 0) (data.getD (2 * i + 1) 0))
  | [], i, h | [_], i, h => by simp at h
  | h :: l :: rest, 0, _ => by simp [wordsOf]
  | h :: l :: rest, i + 1, hi => by
      have := wordsOf_getElem? rest i (by simp at hi; omega)
      simpa [wordsOf, Nat.mul_add] using this

@[simp] theorem wordsOf_length : ∀ data : List Byte, (wordsOf data).length = data.length / 2
  | [] => rfl
  | [_] => by simp [wordsOf]
  | h :: l :: rest => by simp [wordsOf, wordsOf_length rest]; omega

/-- A frame closed by CRC_APPEND: its length. -/
@[simp] theorem crcAppend_length (s : List Byte) : (crcAppend s).length = s.length + 2 := by simp [crcAppend]

@[simp] theorem crcAppend_take (s : List Byte) : (crcAppend s).take s.length = s := by simp [crcAppend]

@[simp] theorem payloadOf_crcAppend (a f : Byte) (p : List Byte) : payloadOf (crcAppend (a :: f :: p)) = p := by
  simp [payloadOf, crcAppend]

/-- The two trailing bytes of a frame, assembled as R62 says. -/
theorem crcAppend_trailer (s : List Byte) :
    be16 ((crcAppend s).getD (s.length + 1) 0) ((crcAppend s).getD s.length 0) = crc16 s := by
  simp [crcAppend, List.getD_eq_getElem?_getD]

/-- A frame of at least two bytes whose trailer is its CRC is the CRC_APPEND of the rest (R102, R103). -/
theorem eq_crcAppend_of_trailer (f : Frame) (h2 : 2 ≤ f.length)
    (h : crc16 (f.take (f.length - 2)) = be16 (f.getD (f.length - 1) 0) (f.getD (f.length - 2) 0)) :
    f = crcAppend (f.take (f.length - 2)) := by
  rw [crcAppend, h, hi_be16, lo_be16]
  conv_lhs => rw [← List.take_append_drop (f.length - 2) f]
  congr 1
  obtain ⟨n, hn⟩ : ∃ n, f.length = n + 2 := ⟨f.length - 2, by omega⟩
  apply List.ext_getElem
  · simp; omega
  · intro i h1 h3
    simp at h1 h3
    match i with
    | 0 => simp [hn, List.getD_eq_getElem?_getD]
    | 1 => simp [hn, List.getD_eq_getElem?_getD]
    | i + 2 => omega

end Sys2Proof
end

