-- ==== Sys2Proof/Laws/Decode.lean ====
section
/-! SUPPORT. One lemma for each parser and for the decoder: all that it can answer. -/

namespace Sys2Proof

/-- Parsing a payload loses no byte. -/
@[simp] theorem parsePair_bytes (p : List Byte) : (parsePair p).bytes = p := by
  unfold parsePair
  split <;> simp [PairOperands.bytes]

theorem parsePair_short {p : List Byte} (h : p.length < 4) : parsePair p = .short p := by
  unfold parsePair
  split
  · simp at h; omega
  · rfl

@[simp] theorem parsePair_wf (p : List Byte) : (parsePair p).wf = true := by
  unfold parsePair
  split
  · rfl
  · next hp =>
    rcases p with _ | ⟨a, _ | ⟨b, _ | ⟨c, _ | ⟨d, p⟩⟩⟩⟩ <;> first | rfl | exact absurd rfl (hp _ _ _ _ _)

@[simp] theorem parsePair_size (p : List Byte) : (parsePair p).size = p.length := by
  unfold parsePair
  split <;> simp [PairOperands.size]; omega

/-- The bytes of a well-formed operand form are read back as it. -/
theorem parsePair_of_bytes (op : PairOperands) (h : op.wf = true) : parsePair op.bytes = op := by
  cases op with
  | fields a q ignored => simp [PairOperands.bytes, parsePair]
  | short p => exact parsePair_short (p := p) (by simpa [PairOperands.wf] using h)

@[simp] theorem pairBytes_length (op : PairOperands) : op.bytes.length = op.size := by
  cases op <;> simp [PairOperands.bytes, PairOperands.size]; omega

@[simp] theorem parseMulti_bytes (p : List Byte) : (parseMulti p).bytes = p := by
  unfold parseMulti
  split
  · split <;> simp [MultiOperands.bytes]
  · rfl

@[simp] theorem parseMulti_wf (p : List Byte) : (parseMulti p).wf = true := by
  unfold parseMulti
  split
  · split
    · next h => simp [MultiOperands.wf, h]
    · next h => simp [MultiOperands.wf]; omega
  · next hp =>
    rcases p with _ | ⟨a, _ | ⟨b, _ | ⟨c, _ | ⟨d, _ | ⟨e, p⟩⟩⟩⟩⟩ <;>
      first | exact absurd rfl (hp _ _ _ _ _ _) | simp [MultiOperands.wf]

@[simp] theorem parseMulti_size (p : List Byte) : (parseMulti p).size = p.length := by
  unfold parseMulti
  split
  · split <;> simp [MultiOperands.size]; omega
  · rfl

theorem parseMulti_of_bytes (op : MultiOperands) (h : op.wf = true) : parseMulti op.bytes = op := by
  cases op with
  | fields a q bc data => simp_all [MultiOperands.bytes, parseMulti, MultiOperands.wf]
  | badLength p =>
    simp only [MultiOperands.bytes, parseMulti]
    split
    · rw [if_neg]
      intro hd
      simp [MultiOperands.wf, hd] at h
      omega
    · rfl

@[simp] theorem multiBytes_length (op : MultiOperands) : op.bytes.length = op.size := by
  cases op <;> simp [MultiOperands.bytes, MultiOperands.size]; omega

/-- The decoder accepts exactly the frames that pass the three checks before the function decode (R115). -/
theorem decode_ok_iff (a : Byte) (f : Frame) (r : Request) :
    decode a f = .ok r ↔
      4 ≤ f.length ∧ f.getD 0 0 = a ∧ crcOk f = true ∧ r = parseRequest (f.getD 0 0) (f.getD 1 0) (payloadOf f) := by
  unfold decode
  split
  · simp; omega
  · split
    · simp; omega
    · split
      · next h => simp_all
      · split
        · next h => simp [h]
        · next h4 ha hc =>
          simp only [Except.ok.injEq]
          simp at hc ha
          constructor
          · intro h; exact ⟨by omega, ha, hc, h.symm⟩
          · intro h; exact h.2.2.2.symm

theorem decode_empty_iff (a : Byte) (f : Frame) : decode a f = .error .empty ↔ f.length = 0 := by
  unfold decode; (repeat' split) <;> simp_all

theorem decode_runt_iff (a : Byte) (f : Frame) : decode a f = .error .runt ↔ 1 ≤ f.length ∧ f.length < 4 := by
  unfold decode
  split
  · simp; omega
  · split
    · simp; omega
    · (repeat' split) <;> simp <;> omega

theorem decode_addressMismatch_iff (a : Byte) (f : Frame) :
    decode a f = .error .addressMismatch ↔ 4 ≤ f.length ∧ f.getD 0 0 ≠ a := by
  unfold decode; (repeat' split) <;> simp_all

theorem decode_crcError_iff (a : Byte) (f : Frame) :
    decode a f = .error .crcError ↔ 4 ≤ f.length ∧ f.getD 0 0 = a ∧ crcOk f = false := by
  unfold decode; (repeat' split) <;> simp_all

/-- All that the function decode can answer (R63, R114). -/
theorem parseRequest_cases (a fn : Byte) (p : List Byte) :
    (fn = 0x03#8 ∧ parseRequest a fn p = .readHoldingRegisters a (parsePair p)) ∨
    (fn = 0x06#8 ∧ parseRequest a fn p = .writeSingleRegister a (parsePair p)) ∨
    (fn = 0x10#8 ∧ parseRequest a fn p = .writeMultipleRegisters a (parseMulti p)) ∨
    (fn ≠ 0x03#8 ∧ fn ≠ 0x06#8 ∧ fn ≠ 0x10#8 ∧ parseRequest a fn p = .illegalFunction a fn p) := by
  unfold parseRequest
  by_cases h3 : fn = 0x03#8
  · simp [h3]
  · by_cases h6 : fn = 0x06#8
    · simp [h6]
    · by_cases h10 : fn = 0x10#8
      · simp [h10]
      · simp [h3, h6, h10]

/-- The bytes of a frame before its CRC: address, function code, payload (R60). -/
theorem frame_split (f : Frame) (h : 4 ≤ f.length) :
    f.take (f.length - 2) = f.getD 0 0 :: f.getD 1 0 :: payloadOf f := by
  match f with
  | a :: b :: c :: d :: f => simp [payloadOf]
  | [] | [_] | [_, _] | [_, _, _] => simp at h

theorem crcOk_iff (f : Frame) :
    crcOk f = true ↔ crc16 (f.take (f.length - 2)) = be16 (f.getD (f.length - 1) 0) (f.getD (f.length - 2) 0) := by
  simp [crcOk]

end Sys2Proof
end

