-- ==== Sys2Proof/Laws/Memory.lean ====
section
/-! SUPPORT. The frame buffer as canonical byte memory: read after write, and every operation keeps the canonical form. -/

namespace Sys2Proof.Machine

@[simp] theorem Memory.read_nil (i : Nat) : Memory.read [] i = Memory.blank := rfl

/-- An index below every listed one reads as blank. -/
theorem Memory.read_of_lt (m : Memory) (i : Nat) (h : ∀ c ∈ m, i < c.1) : m.read i = Memory.blank := by
  induction m with
  | nil => rfl
  | cons c m ih =>
    have := h c (by simp)
    rw [Memory.read, if_neg (by omega), ih fun d hd => h d (by simp [hd])]

theorem Memory.read_cons (i j : Nat) (b : Byte) (m : Memory) (h : ∀ c ∈ m, i < c.1) :
    (Memory.cons i b m).read j = if j = i then b else m.read j := by
  unfold Memory.cons
  split
  · next hb =>
    split
    · next hj => rw [hj, hb, Memory.read_of_lt m i h]
    · rfl
  · simp only [Memory.read, eq_comm]

theorem Memory.mem_cons {i : Nat} {b : Byte} {m : Memory} {c : Host.Cell} (h : c ∈ Memory.cons i b m) :
    c = (i, b) ∨ c ∈ m := by
  unfold Memory.cons at h
  split at h
  · exact .inr h
  · simpa using h

theorem Memory.cons_wf (i : Nat) (b : Byte) (m : Memory) (hw : m.wf) (h : ∀ c ∈ m, i < c.1) :
    (Memory.cons i b m).wf := by
  unfold Memory.cons
  split
  · exact hw
  · next hb => exact ⟨List.pairwise_cons.2 ⟨h, hw.1⟩, by simpa [hb] using hw.2⟩

theorem Memory.wf_tail {c : Host.Cell} {m : Memory} (h : Memory.wf (c :: m)) :
    m.wf ∧ (∀ d ∈ m, c.1 < d.1) ∧ c.2 ≠ Memory.blank := by
  obtain ⟨h1, h2⟩ := h
  rw [List.pairwise_cons] at h1
  exact ⟨⟨h1.2, fun d hd => h2 d (by simp [hd])⟩, h1.1, h2 c (by simp)⟩

/-- The cells after a write are the written one and old ones. -/
theorem Memory.mem_write {m : Memory} {i : Nat} {b : Byte} {c : Host.Cell} (h : c ∈ m.write i b) :
    c = (i, b) ∨ c ∈ m := by
  induction m with
  | nil => exact Memory.mem_cons h
  | cons d m ih =>
    simp only [Memory.write] at h
    split at h
    · rcases List.mem_cons.1 h with h | h
      · simp [h]
      · rcases ih h with h | h <;> simp [h]
    · split at h <;> rcases Memory.mem_cons h with h | h <;> simp_all

/-- Every write keeps the canonical form. -/
theorem Memory.write_wf (m : Memory) (i : Nat) (b : Byte) (hw : m.wf) : (m.write i b).wf := by
  induction m with
  | nil => exact Memory.cons_wf i b [] hw (by simp)
  | cons c m ih =>
    obtain ⟨hm, hlt, hb⟩ := Memory.wf_tail hw
    simp only [Memory.write]
    split
    · next hi =>
      have hrec := ih hm
      refine ⟨List.pairwise_cons.2 ⟨fun d hd => ?_, hrec.1⟩, fun d hd => ?_⟩
      · rcases Memory.mem_write hd with rfl | hd
        · exact hi
        · exact hlt d hd
      · rcases List.mem_cons.1 hd with rfl | hd
        · exact hb
        · exact hrec.2 d hd
    · next hi =>
      split
      · next he => exact Memory.cons_wf i b m hm fun d hd => he ▸ hlt d hd
      · next he =>
        refine Memory.cons_wf i b (c :: m) hw fun d hd => ?_
        rcases List.mem_cons.1 hd with rfl | hd
        · omega
        · have := hlt d hd; omega

/-- A read after a write: the written byte at its index, the old one everywhere else. -/
theorem Memory.read_write (m : Memory) (i j : Nat) (b : Byte) (hw : m.wf) :
    (m.write i b).read j = if j = i then b else m.read j := by
  induction m with
  | nil => exact Memory.read_cons i j b [] (by simp)
  | cons c m ih =>
    obtain ⟨hm, hlt, -⟩ := Memory.wf_tail hw
    simp only [Memory.write]
    split
    · next hi =>
      simp only [Memory.read, ih hm]
      split <;> split <;> first | rfl | omega
    · next hi =>
      split
      · next he =>
        rw [Memory.read_cons i j b m fun d hd => he ▸ hlt d hd]
        split
        · rfl
        · next hj => rw [Memory.read, if_neg (by omega)]
      · next he =>
        refine Memory.read_cons i j b (c :: m) fun d hd => ?_
        rcases List.mem_cons.1 hd with rfl | hd
        · omega
        · have := hlt d hd; omega

theorem Memory.ofBytes_spec (bytes : List Byte) : ∀ i, (∀ c ∈ Memory.ofBytes i bytes, i ≤ c.1 ∧ c.1 < i + bytes.length) ∧
    (Memory.ofBytes i bytes).wf ∧ ∀ k, (Memory.ofBytes i bytes).read (i + k) = bytes.getD k Memory.blank := by
  induction bytes with
  | nil => intro i; exact ⟨by simp [Memory.ofBytes], ⟨List.Pairwise.nil, by simp [Memory.ofBytes]⟩, by simp [Memory.ofBytes]⟩
  | cons b bytes ih =>
    intro i
    obtain ⟨hr, hw, hg⟩ := ih (i + 1)
    have hlt : ∀ c ∈ Memory.ofBytes (i + 1) bytes, i < c.1 := fun c hc => by have := hr c hc; omega
    refine ⟨fun c hc => ?_, Memory.cons_wf i b _ hw hlt, fun k => ?_⟩
    · rcases Memory.mem_cons hc with rfl | hc
      · simp
      · have := hr c hc; simp; omega
    · rw [Memory.ofBytes, Memory.read_cons i _ b _ hlt]
      cases k with
      | zero => simp
      | succ k => rw [if_neg (by omega), show i + (k + 1) = i + 1 + k by omega, hg]; simp

@[simp] theorem frame_length (s : State) : s.frame.length = s.widx := by simp [State.frame]

/-- Byte `i` of the frame is `buf[i]` for `i < widx`. -/
theorem frame_getD (s : State) (i : Nat) (h : i < s.widx) : s.frame.getD i 0 = s.buf.read i := by
  simp [State.frame, List.getD_eq_getElem?_getD, h]

/-- What the host's fetch word puts into the buffer is the frame. -/
theorem frame_of_bytes (s : State) (f : Frame) : { s with buf := Memory.ofBytes 0 f, widx := f.length }.frame = f := by
  apply List.ext_getElem
  · simp
  · intro i h1 h2
    have := (Memory.ofBytes_spec f 0).2.2 i
    simp only [Nat.zero_add] at this
    simp [State.frame, this, h2]

end Sys2Proof.Machine
end

