-- ==== Sys2Proof/Laws/State.lean ====
section
/-! SUPPORT. What each shared operation that is one record update does to each field, so that no proof unfolds it. -/

namespace Sys2Proof.Machine

/-! `State.countRx` -/

@[simp] theorem countRx_cfg (s : State) : s.countRx.cfg = s.cfg := rfl
@[simp] theorem countRx_x (s : State) : s.countRx.x = s.x := rfl
@[simp] theorem countRx_buf (s : State) : s.countRx.buf = s.buf := rfl
@[simp] theorem countRx_widx (s : State) : s.countRx.widx = s.widx := rfl
@[simp] theorem countRx_dstate (s : State) : s.countRx.dstate = s.dstate := rfl
@[simp] theorem countRx_status (s : State) : s.countRx.status = s.status := rfl
@[simp] theorem countRx_rxCount (s : State) : s.countRx.rxCount = satInc s.cfg.ctrWidth s.rxCount := rfl
@[simp] theorem countRx_txCount (s : State) : s.countRx.txCount = s.txCount := rfl
@[simp] theorem countRx_appended (s : State) : s.countRx.appended = s.appended := rfl
@[simp] theorem countRx_sent (s : State) : s.countRx.sent = s.sent := rfl
@[simp] theorem countRx_portbSeen (s : State) : s.countRx.portbSeen = s.portbSeen := rfl
@[simp] theorem countRx_inbox (s : State) : s.countRx.inbox = s.inbox := rfl
@[simp] theorem countRx_portbSchedule (s : State) : s.countRx.portbSchedule = s.portbSchedule := rfl

/-! `State.countTx` -/

@[simp] theorem countTx_cfg (s : State) : s.countTx.cfg = s.cfg := rfl
@[simp] theorem countTx_x (s : State) : s.countTx.x = s.x := rfl
@[simp] theorem countTx_buf (s : State) : s.countTx.buf = s.buf := rfl
@[simp] theorem countTx_widx (s : State) : s.countTx.widx = s.widx := rfl
@[simp] theorem countTx_dstate (s : State) : s.countTx.dstate = s.dstate := rfl
@[simp] theorem countTx_status (s : State) : s.countTx.status = s.status := rfl
@[simp] theorem countTx_rxCount (s : State) : s.countTx.rxCount = s.rxCount := rfl
@[simp] theorem countTx_txCount (s : State) : s.countTx.txCount = satInc s.cfg.ctrWidth s.txCount := rfl
@[simp] theorem countTx_appended (s : State) : s.countTx.appended = s.appended := rfl
@[simp] theorem countTx_sent (s : State) : s.countTx.sent = s.sent := rfl
@[simp] theorem countTx_portbSeen (s : State) : s.countTx.portbSeen = s.portbSeen := rfl
@[simp] theorem countTx_inbox (s : State) : s.countTx.inbox = s.inbox := rfl
@[simp] theorem countTx_portbSchedule (s : State) : s.countTx.portbSchedule = s.portbSchedule := rfl

/-! `State.transmit` -/

@[simp] theorem transmit_cfg (s : State) (f : Frame) : (s.transmit f).cfg = s.cfg := rfl
@[simp] theorem transmit_x (s : State) (f : Frame) : (s.transmit f).x = s.x := rfl
@[simp] theorem transmit_buf (s : State) (f : Frame) : (s.transmit f).buf = s.buf := rfl
@[simp] theorem transmit_widx (s : State) (f : Frame) : (s.transmit f).widx = s.widx := rfl
@[simp] theorem transmit_dstate (s : State) (f : Frame) : (s.transmit f).dstate = s.dstate := rfl
@[simp] theorem transmit_status (s : State) (f : Frame) : (s.transmit f).status = s.status := rfl
@[simp] theorem transmit_rxCount (s : State) (f : Frame) : (s.transmit f).rxCount = s.rxCount := rfl
@[simp] theorem transmit_txCount (s : State) (f : Frame) : (s.transmit f).txCount = s.txCount := rfl
@[simp] theorem transmit_appended (s : State) (f : Frame) : (s.transmit f).appended = s.appended := rfl
@[simp] theorem transmit_sent (s : State) (f : Frame) : (s.transmit f).sent = s.sent ++ [f] := rfl
@[simp] theorem transmit_portbSeen (s : State) (f : Frame) : (s.transmit f).portbSeen = s.portbSeen := rfl
@[simp] theorem transmit_inbox (s : State) (f : Frame) : (s.transmit f).inbox = s.inbox := rfl
@[simp] theorem transmit_portbSchedule (s : State) (f : Frame) : (s.transmit f).portbSchedule = s.portbSchedule := rfl

/-! `State.forward` -/

@[simp] theorem forward_cfg (s : State) (bytes : List Byte) : (s.forward bytes).cfg = s.cfg := rfl
@[simp] theorem forward_x (s : State) (bytes : List Byte) : (s.forward bytes).x = s.x := rfl
@[simp] theorem forward_buf (s : State) (bytes : List Byte) : (s.forward bytes).buf = s.buf := rfl
@[simp] theorem forward_widx (s : State) (bytes : List Byte) : (s.forward bytes).widx = s.widx := rfl
@[simp] theorem forward_dstate (s : State) (bytes : List Byte) : (s.forward bytes).dstate = .responding := rfl
@[simp] theorem forward_status (s : State) (bytes : List Byte) : (s.forward bytes).status = s.status := rfl
@[simp] theorem forward_rxCount (s : State) (bytes : List Byte) : (s.forward bytes).rxCount = s.rxCount := rfl
@[simp] theorem forward_txCount (s : State) (bytes : List Byte) : (s.forward bytes).txCount = satInc s.cfg.ctrWidth s.txCount := rfl
@[simp] theorem forward_appended (s : State) (bytes : List Byte) : (s.forward bytes).appended = s.appended := rfl
@[simp] theorem forward_sent (s : State) (bytes : List Byte) : (s.forward bytes).sent = s.sent ++ [crcAppend bytes] := rfl
@[simp] theorem forward_portbSeen (s : State) (bytes : List Byte) : (s.forward bytes).portbSeen = s.portbSeen := rfl
@[simp] theorem forward_inbox (s : State) (bytes : List Byte) : (s.forward bytes).inbox = s.inbox := rfl
@[simp] theorem forward_portbSchedule (s : State) (bytes : List Byte) : (s.forward bytes).portbSchedule = s.portbSchedule := rfl

/-! `State.discard` -/

@[simp] theorem discard_cfg (s : State) (r : Reject) : (s.discard r).cfg = s.cfg := rfl
@[simp] theorem discard_x (s : State) (r : Reject) : (s.discard r).x = s.x := rfl
@[simp] theorem discard_buf (s : State) (r : Reject) : (s.discard r).buf = s.buf := rfl
@[simp] theorem discard_widx (s : State) (r : Reject) : (s.discard r).widx = s.widx := rfl
@[simp] theorem discard_dstate (s : State) (r : Reject) : (s.discard r).dstate = s.dstate := rfl
@[simp] theorem discard_status (s : State) (r : Reject) : (s.discard r).status = discardStatus r := rfl
@[simp] theorem discard_rxCount (s : State) (r : Reject) : (s.discard r).rxCount = s.rxCount := rfl
@[simp] theorem discard_txCount (s : State) (r : Reject) : (s.discard r).txCount = s.txCount := rfl
@[simp] theorem discard_appended (s : State) (r : Reject) : (s.discard r).appended = s.appended := rfl
@[simp] theorem discard_sent (s : State) (r : Reject) : (s.discard r).sent = s.sent := rfl
@[simp] theorem discard_portbSeen (s : State) (r : Reject) : (s.discard r).portbSeen = s.portbSeen := rfl
@[simp] theorem discard_inbox (s : State) (r : Reject) : (s.discard r).inbox = s.inbox := rfl
@[simp] theorem discard_portbSchedule (s : State) (r : Reject) : (s.discard r).portbSchedule = s.portbSchedule := rfl

/-! `State.returnToIdle` -/

@[simp] theorem returnToIdle_cfg (s : State) : s.returnToIdle.cfg = s.cfg := rfl
@[simp] theorem returnToIdle_x (s : State) : s.returnToIdle.x = s.x := rfl
@[simp] theorem returnToIdle_buf (s : State) : s.returnToIdle.buf = [] := rfl
@[simp] theorem returnToIdle_widx (s : State) : s.returnToIdle.widx = 0 := rfl
@[simp] theorem returnToIdle_dstate (s : State) : s.returnToIdle.dstate = .idle := rfl
@[simp] theorem returnToIdle_status (s : State) : s.returnToIdle.status = s.status := rfl
@[simp] theorem returnToIdle_rxCount (s : State) : s.returnToIdle.rxCount = s.rxCount := rfl
@[simp] theorem returnToIdle_txCount (s : State) : s.returnToIdle.txCount = s.txCount := rfl
@[simp] theorem returnToIdle_appended (s : State) : s.returnToIdle.appended = s.appended := rfl
@[simp] theorem returnToIdle_sent (s : State) : s.returnToIdle.sent = s.sent := rfl
@[simp] theorem returnToIdle_portbSeen (s : State) : s.returnToIdle.portbSeen = s.portbSeen := rfl
@[simp] theorem returnToIdle_inbox (s : State) : s.returnToIdle.inbox = s.inbox := rfl
@[simp] theorem returnToIdle_portbSchedule (s : State) : s.returnToIdle.portbSchedule = s.portbSchedule := rfl

/-! `State.validate` -/

@[simp] theorem validate_cfg (s : State) : s.validate.cfg = s.cfg := rfl
@[simp] theorem validate_x (s : State) : s.validate.x = s.x := rfl
@[simp] theorem validate_buf (s : State) : s.validate.buf = s.buf := rfl
@[simp] theorem validate_widx (s : State) : s.validate.widx = s.widx := rfl
@[simp] theorem validate_dstate (s : State) : s.validate.dstate = .validating := rfl
@[simp] theorem validate_status (s : State) : s.validate.status = s.status := rfl
@[simp] theorem validate_rxCount (s : State) : s.validate.rxCount = s.rxCount := rfl
@[simp] theorem validate_txCount (s : State) : s.validate.txCount = s.txCount := rfl
@[simp] theorem validate_appended (s : State) : s.validate.appended = s.appended := rfl
@[simp] theorem validate_sent (s : State) : s.validate.sent = s.sent := rfl
@[simp] theorem validate_portbSeen (s : State) : s.validate.portbSeen = s.portbSeen := rfl
@[simp] theorem validate_inbox (s : State) : s.validate.inbox = s.inbox := rfl
@[simp] theorem validate_portbSchedule (s : State) : s.validate.portbSchedule = s.portbSchedule := rfl

/-! `State.accept` -/

@[simp] theorem accept_cfg (s : State) : s.accept.cfg = s.cfg := rfl
@[simp] theorem accept_x (s : State) : s.accept.x = s.x := rfl
@[simp] theorem accept_buf (s : State) : s.accept.buf = s.buf := rfl
@[simp] theorem accept_widx (s : State) : s.accept.widx = s.widx := rfl
@[simp] theorem accept_dstate (s : State) : s.accept.dstate = .decoding := rfl
@[simp] theorem accept_status (s : State) : s.accept.status = .ok := rfl
@[simp] theorem accept_rxCount (s : State) : s.accept.rxCount = s.rxCount := rfl
@[simp] theorem accept_txCount (s : State) : s.accept.txCount = s.txCount := rfl
@[simp] theorem accept_appended (s : State) : s.accept.appended = s.appended := rfl
@[simp] theorem accept_sent (s : State) : s.accept.sent = s.sent := rfl
@[simp] theorem accept_portbSeen (s : State) : s.accept.portbSeen = s.portbSeen := rfl
@[simp] theorem accept_inbox (s : State) : s.accept.inbox = s.inbox := rfl
@[simp] theorem accept_portbSchedule (s : State) : s.accept.portbSchedule = s.portbSchedule := rfl

/-! `State.reinit` -/

@[simp] theorem reinit_cfg (s : State) : s.reinit.cfg = s.cfg := rfl
@[simp] theorem reinit_x (s : State) : s.reinit.x = s.cfg.storeInit := rfl
@[simp] theorem reinit_buf (s : State) : s.reinit.buf = [] := rfl
@[simp] theorem reinit_widx (s : State) : s.reinit.widx = 0 := rfl
@[simp] theorem reinit_dstate (s : State) : s.reinit.dstate = .idle := rfl
@[simp] theorem reinit_status (s : State) : s.reinit.status = .ok := rfl
@[simp] theorem reinit_rxCount (s : State) : s.reinit.rxCount = 0 := rfl
@[simp] theorem reinit_txCount (s : State) : s.reinit.txCount = 0 := rfl
@[simp] theorem reinit_appended (s : State) : s.reinit.appended = false := rfl
@[simp] theorem reinit_sent (s : State) : s.reinit.sent = s.sent := rfl
@[simp] theorem reinit_portbSeen (s : State) : s.reinit.portbSeen = s.portbSeen := rfl
@[simp] theorem reinit_inbox (s : State) : s.reinit.inbox = s.inbox := rfl
@[simp] theorem reinit_portbSchedule (s : State) : s.reinit.portbSchedule = s.portbSchedule := rfl

/-! `State.begin` -/

@[simp] theorem begin_cfg (s : State) (rest : List Input) : (s.begin rest).cfg = s.cfg := rfl
@[simp] theorem begin_x (s : State) (rest : List Input) : (s.begin rest).x = s.x := rfl
@[simp] theorem begin_buf (s : State) (rest : List Input) : (s.begin rest).buf = s.buf := rfl
@[simp] theorem begin_widx (s : State) (rest : List Input) : (s.begin rest).widx = s.widx := rfl
@[simp] theorem begin_dstate (s : State) (rest : List Input) : (s.begin rest).dstate = s.dstate := rfl
@[simp] theorem begin_status (s : State) (rest : List Input) : (s.begin rest).status = s.status := rfl
@[simp] theorem begin_rxCount (s : State) (rest : List Input) : (s.begin rest).rxCount = s.rxCount := rfl
@[simp] theorem begin_txCount (s : State) (rest : List Input) : (s.begin rest).txCount = s.txCount := rfl
@[simp] theorem begin_appended (s : State) (rest : List Input) : (s.begin rest).appended = false := rfl
@[simp] theorem begin_sent (s : State) (rest : List Input) : (s.begin rest).sent = s.sent := rfl
@[simp] theorem begin_portbSeen (s : State) (rest : List Input) : (s.begin rest).portbSeen = s.portbSeen := rfl
@[simp] theorem begin_inbox (s : State) (rest : List Input) : (s.begin rest).inbox = rest := rfl
@[simp] theorem begin_portbSchedule (s : State) (rest : List Input) : (s.begin rest).portbSchedule = s.portbSchedule := rfl

/-! The builders, `raise` and the replies are `forward` on their bytes. -/

@[simp] theorem buildResponse_eq (s : State) (addr fn : Byte) (p : List Byte) :
    s.buildResponse addr fn p = s.forward (addr :: fn :: p) := rfl
@[simp] theorem buildException_eq (s : State) (addr fn : Byte) (e : ExceptionCode) :
    s.buildException addr fn e = s.forward [addr, fn ||| 0x80#8, e.byte] := rfl
@[simp] theorem raise_eq (s : State) (addr fn : Byte) (e : ExceptionCode) :
    s.raise addr fn e = s.forward [addr, fn ||| 0x80#8, e.byte] := rfl
@[simp] theorem replyRead_eq (s : State) (addr : Byte) (values : List Word) :
    s.replyRead addr values = s.forward (addr :: 0x03#8 :: readPayload values) := rfl
@[simp] theorem replyEcho_eq (s : State) (addr fn : Byte) (first second : Word) :
    s.replyEcho addr fn first second = s.forward [addr, fn, hi first, lo first, hi second, lo second] := rfl
@[simp] theorem raiseLength_eq (s : State) (addr fn : Byte) :
    s.raiseLength addr fn = { s with status := .frameError }.forward [addr, fn ||| 0x80#8, 0x03#8] := rfl

/-- `forward` as one record update: all that a builder changes. -/
theorem forward_eq (s : State) (bytes : List Byte) :
    s.forward bytes = { s with dstate := .responding, sent := s.sent ++ [crcAppend bytes],
                               txCount := satInc s.cfg.ctrWidth s.txCount } := rfl

/-- `timeout` is the frame's handling between lowering `appended` and the return. -/
theorem timeout_eq (s : State) : s.timeout = { s with appended := false }.handleFrame.returnToIdle := rfl

end Sys2Proof.Machine
end

