-- ==== Sys2Proof/Laws/Store.lean ====
section
/-! SUPPORT. The Register Store and its second port: read after write, and what an access of either agent leaves alone. -/

namespace Sys2Proof.Machine

theorem memRead_of_lt (s : State) (a : Nat) (h : a < 64) : s.memRead a = s.x[a] := dif_pos h

@[simp] theorem memRead_of_ge (s : State) (a : Nat) (h : 64 ≤ a) : s.memRead a = 0x0000#16 := dif_neg (by omega)

/-- `memRead` looks at the store only. -/
theorem memRead_congr {s t : State} (h : s.x = t.x) (a : Nat) : s.memRead a = t.memRead a := by
  simp only [State.memRead, h]

/-- Two stores that read alike at every address are equal. -/
theorem x_ext {s t : State} (h : ∀ a, s.memRead a = t.memRead a) : s.x = t.x := by
  apply Vector.ext
  intro i hi
  have := h i
  rwa [memRead_of_lt s i hi, memRead_of_lt t i hi] at this

/-- A write changes the store and nothing else. -/
theorem memWrite_frame (s : State) (a : Nat) (v : Word) : s.memWrite a v = { s with x := (s.memWrite a v).x } := by
  unfold State.memWrite
  split <;> rfl

/-- A read after a write: the value at the written cell, the old one everywhere else; nothing outside the store. -/
theorem memRead_memWrite (s : State) (a b : Nat) (v : Word) :
    (s.memWrite a v).memRead b = if b = a ∧ a < 64 then v else s.memRead b := by
  unfold State.memWrite State.memRead
  by_cases ha : a < 64
  · by_cases hb : b < 64
    · by_cases hab : b = a
      · subst hab; simp [ha]
      · simp [ha, hb, hab, Ne.symm hab]
    · have : b ≠ a := by omega
      simp [ha, hb, this]
  · simp [ha]

theorem memWrite_of_ge (s : State) (a : Nat) (v : Word) (h : 64 ≤ a) : s.memWrite a v = s := dif_neg (by omega)

/-- `t` differs from `s` in the store and in PORTB's own inputs and outputs at most: what an access of either agent does. -/
def State.storeOnly (s t : State) : Prop :=
  t = { s with x := t.x, portbSeen := t.portbSeen, portbSchedule := t.portbSchedule }

theorem State.storeOnly.refl (s : State) : s.storeOnly s := rfl

theorem State.storeOnly.trans {s t u : State} (h : s.storeOnly t) (k : t.storeOnly u) : s.storeOnly u := by
  unfold State.storeOnly at *
  rw [k, h]

theorem State.storeOnly.cfg {s t : State} (h : s.storeOnly t) : t.cfg = s.cfg := by rw [h]
theorem State.storeOnly.buf {s t : State} (h : s.storeOnly t) : t.buf = s.buf := by rw [h]
theorem State.storeOnly.widx {s t : State} (h : s.storeOnly t) : t.widx = s.widx := by rw [h]
theorem State.storeOnly.dstate {s t : State} (h : s.storeOnly t) : t.dstate = s.dstate := by rw [h]
theorem State.storeOnly.status {s t : State} (h : s.storeOnly t) : t.status = s.status := by rw [h]
theorem State.storeOnly.rxCount {s t : State} (h : s.storeOnly t) : t.rxCount = s.rxCount := by rw [h]
theorem State.storeOnly.txCount {s t : State} (h : s.storeOnly t) : t.txCount = s.txCount := by rw [h]
theorem State.storeOnly.appended {s t : State} (h : s.storeOnly t) : t.appended = s.appended := by rw [h]
theorem State.storeOnly.sent {s t : State} (h : s.storeOnly t) : t.sent = s.sent := by rw [h]
theorem State.storeOnly.inbox {s t : State} (h : s.storeOnly t) : t.inbox = s.inbox := by rw [h]

theorem storeOnly_memWrite (s : State) (a : Nat) (v : Word) : s.storeOnly (s.memWrite a v) := by
  unfold State.memWrite
  split <;> rfl

theorem storeOnly_portbStep (s : State) (op : PortbOp) : s.storeOnly (s.portbStep op) := by
  cases op with
  | read a => rfl
  | write a v => exact storeOnly_memWrite s a v

theorem storeOnly_portbRun (ops : List PortbOp) : ∀ s : State, s.storeOnly (s.portbRun ops) := by
  induction ops with
  | nil => exact State.storeOnly.refl
  | cons op ops ih => exact fun s => (storeOnly_portbStep s op).trans (ih _)

theorem storeOnly_portbPoint (s : State) : s.storeOnly s.portbPoint := by
  unfold State.portbPoint
  split
  · rfl
  · split
    · rfl
    · next ops rest _ =>
      exact State.storeOnly.trans (t := { s with portbSchedule := rest }) rfl (storeOnly_portbRun ops _)

theorem storeOnly_readCells (n : Nat) : ∀ (s : State) (a : Nat), s.storeOnly (s.readCells a n).2 := by
  induction n with
  | zero => exact fun s _ => storeOnly_portbPoint s
  | succ n ih => exact fun s a => (storeOnly_portbPoint s).trans (ih _ _)

theorem storeOnly_writeCells (values : List Word) : ∀ (s : State) (a : Nat), s.storeOnly (s.writeCells a values) := by
  induction values with
  | nil => exact fun s _ => storeOnly_portbPoint s
  | cons v values ih =>
    exact fun s a => ((storeOnly_portbPoint s).trans (storeOnly_memWrite _ a v)).trans (ih _ _)

/-! `State.memWrite` -/

@[simp] theorem memWrite_cfg (s : State) (a : Nat) (v : Word) : (s.memWrite a v).cfg = s.cfg := (storeOnly_memWrite s a v).cfg
@[simp] theorem memWrite_buf (s : State) (a : Nat) (v : Word) : (s.memWrite a v).buf = s.buf := (storeOnly_memWrite s a v).buf
@[simp] theorem memWrite_widx (s : State) (a : Nat) (v : Word) : (s.memWrite a v).widx = s.widx := (storeOnly_memWrite s a v).widx
@[simp] theorem memWrite_dstate (s : State) (a : Nat) (v : Word) : (s.memWrite a v).dstate = s.dstate := (storeOnly_memWrite s a v).dstate
@[simp] theorem memWrite_status (s : State) (a : Nat) (v : Word) : (s.memWrite a v).status = s.status := (storeOnly_memWrite s a v).status
@[simp] theorem memWrite_rxCount (s : State) (a : Nat) (v : Word) : (s.memWrite a v).rxCount = s.rxCount := (storeOnly_memWrite s a v).rxCount
@[simp] theorem memWrite_txCount (s : State) (a : Nat) (v : Word) : (s.memWrite a v).txCount = s.txCount := (storeOnly_memWrite s a v).txCount
@[simp] theorem memWrite_appended (s : State) (a : Nat) (v : Word) : (s.memWrite a v).appended = s.appended := (storeOnly_memWrite s a v).appended
@[simp] theorem memWrite_sent (s : State) (a : Nat) (v : Word) : (s.memWrite a v).sent = s.sent := (storeOnly_memWrite s a v).sent
@[simp] theorem memWrite_inbox (s : State) (a : Nat) (v : Word) : (s.memWrite a v).inbox = s.inbox := (storeOnly_memWrite s a v).inbox

/-! `State.portbStep` -/

@[simp] theorem portbStep_cfg (s : State) (op : PortbOp) : (s.portbStep op).cfg = s.cfg := (storeOnly_portbStep s op).cfg
@[simp] theorem portbStep_buf (s : State) (op : PortbOp) : (s.portbStep op).buf = s.buf := (storeOnly_portbStep s op).buf
@[simp] theorem portbStep_widx (s : State) (op : PortbOp) : (s.portbStep op).widx = s.widx := (storeOnly_portbStep s op).widx
@[simp] theorem portbStep_dstate (s : State) (op : PortbOp) : (s.portbStep op).dstate = s.dstate := (storeOnly_portbStep s op).dstate
@[simp] theorem portbStep_status (s : State) (op : PortbOp) : (s.portbStep op).status = s.status := (storeOnly_portbStep s op).status
@[simp] theorem portbStep_rxCount (s : State) (op : PortbOp) : (s.portbStep op).rxCount = s.rxCount := (storeOnly_portbStep s op).rxCount
@[simp] theorem portbStep_txCount (s : State) (op : PortbOp) : (s.portbStep op).txCount = s.txCount := (storeOnly_portbStep s op).txCount
@[simp] theorem portbStep_appended (s : State) (op : PortbOp) : (s.portbStep op).appended = s.appended := (storeOnly_portbStep s op).appended
@[simp] theorem portbStep_sent (s : State) (op : PortbOp) : (s.portbStep op).sent = s.sent := (storeOnly_portbStep s op).sent
@[simp] theorem portbStep_inbox (s : State) (op : PortbOp) : (s.portbStep op).inbox = s.inbox := (storeOnly_portbStep s op).inbox

/-! `State.portbPoint` -/

@[simp] theorem portbPoint_cfg (s : State) : s.portbPoint.cfg = s.cfg := (storeOnly_portbPoint s).cfg
@[simp] theorem portbPoint_buf (s : State) : s.portbPoint.buf = s.buf := (storeOnly_portbPoint s).buf
@[simp] theorem portbPoint_widx (s : State) : s.portbPoint.widx = s.widx := (storeOnly_portbPoint s).widx
@[simp] theorem portbPoint_dstate (s : State) : s.portbPoint.dstate = s.dstate := (storeOnly_portbPoint s).dstate
@[simp] theorem portbPoint_status (s : State) : s.portbPoint.status = s.status := (storeOnly_portbPoint s).status
@[simp] theorem portbPoint_rxCount (s : State) : s.portbPoint.rxCount = s.rxCount := (storeOnly_portbPoint s).rxCount
@[simp] theorem portbPoint_txCount (s : State) : s.portbPoint.txCount = s.txCount := (storeOnly_portbPoint s).txCount
@[simp] theorem portbPoint_appended (s : State) : s.portbPoint.appended = s.appended := (storeOnly_portbPoint s).appended
@[simp] theorem portbPoint_sent (s : State) : s.portbPoint.sent = s.sent := (storeOnly_portbPoint s).sent
@[simp] theorem portbPoint_inbox (s : State) : s.portbPoint.inbox = s.inbox := (storeOnly_portbPoint s).inbox

/-! `State.readCells` -/

@[simp] theorem readCells_cfg (s : State) (a n : Nat) : (s.readCells a n).2.cfg = s.cfg := (storeOnly_readCells n s a).cfg
@[simp] theorem readCells_buf (s : State) (a n : Nat) : (s.readCells a n).2.buf = s.buf := (storeOnly_readCells n s a).buf
@[simp] theorem readCells_widx (s : State) (a n : Nat) : (s.readCells a n).2.widx = s.widx := (storeOnly_readCells n s a).widx
@[simp] theorem readCells_dstate (s : State) (a n : Nat) : (s.readCells a n).2.dstate = s.dstate := (storeOnly_readCells n s a).dstate
@[simp] theorem readCells_status (s : State) (a n : Nat) : (s.readCells a n).2.status = s.status := (storeOnly_readCells n s a).status
@[simp] theorem readCells_rxCount (s : State) (a n : Nat) : (s.readCells a n).2.rxCount = s.rxCount := (storeOnly_readCells n s a).rxCount
@[simp] theorem readCells_txCount (s : State) (a n : Nat) : (s.readCells a n).2.txCount = s.txCount := (storeOnly_readCells n s a).txCount
@[simp] theorem readCells_appended (s : State) (a n : Nat) : (s.readCells a n).2.appended = s.appended := (storeOnly_readCells n s a).appended
@[simp] theorem readCells_sent (s : State) (a n : Nat) : (s.readCells a n).2.sent = s.sent := (storeOnly_readCells n s a).sent
@[simp] theorem readCells_inbox (s : State) (a n : Nat) : (s.readCells a n).2.inbox = s.inbox := (storeOnly_readCells n s a).inbox

/-! `State.writeCells` -/

@[simp] theorem writeCells_cfg (s : State) (a : Nat) (vs : List Word) : (s.writeCells a vs).cfg = s.cfg := (storeOnly_writeCells vs s a).cfg
@[simp] theorem writeCells_buf (s : State) (a : Nat) (vs : List Word) : (s.writeCells a vs).buf = s.buf := (storeOnly_writeCells vs s a).buf
@[simp] theorem writeCells_widx (s : State) (a : Nat) (vs : List Word) : (s.writeCells a vs).widx = s.widx := (storeOnly_writeCells vs s a).widx
@[simp] theorem writeCells_dstate (s : State) (a : Nat) (vs : List Word) : (s.writeCells a vs).dstate = s.dstate := (storeOnly_writeCells vs s a).dstate
@[simp] theorem writeCells_status (s : State) (a : Nat) (vs : List Word) : (s.writeCells a vs).status = s.status := (storeOnly_writeCells vs s a).status
@[simp] theorem writeCells_rxCount (s : State) (a : Nat) (vs : List Word) : (s.writeCells a vs).rxCount = s.rxCount := (storeOnly_writeCells vs s a).rxCount
@[simp] theorem writeCells_txCount (s : State) (a : Nat) (vs : List Word) : (s.writeCells a vs).txCount = s.txCount := (storeOnly_writeCells vs s a).txCount
@[simp] theorem writeCells_appended (s : State) (a : Nat) (vs : List Word) : (s.writeCells a vs).appended = s.appended := (storeOnly_writeCells vs s a).appended
@[simp] theorem writeCells_sent (s : State) (a : Nat) (vs : List Word) : (s.writeCells a vs).sent = s.sent := (storeOnly_writeCells vs s a).sent
@[simp] theorem writeCells_inbox (s : State) (a : Nat) (vs : List Word) : (s.writeCells a vs).inbox = s.inbox := (storeOnly_writeCells vs s a).inbox

/-! With PORTB quiet inside requests, the accesses of a request are the engine's alone. -/

theorem portbPoint_of_quiet {s : State} (h : s.portbQuiet) : s.portbPoint = s := by
  unfold State.portbPoint
  rcases h with h | h
  · rw [h]
  · rw [h]; split <;> rfl

theorem quiet_memWrite {s : State} (h : s.portbQuiet) (a : Nat) (v : Word) : (s.memWrite a v).portbQuiet := by
  unfold State.memWrite
  split <;> exact h

theorem readCells_of_quiet {s : State} (h : s.portbQuiet) (n : Nat) :
    ∀ a, s.readCells a n = ((List.range n).map fun i => s.memRead (a + i), s) := by
  induction n with
  | zero => intro a; simp [State.readCells, portbPoint_of_quiet h]
  | succ n ih =>
    intro a
    simp only [State.readCells, portbPoint_of_quiet h, ih, List.range_succ_eq_map, List.map_cons, List.map_map]
    simp [Function.comp_def, Nat.add_assoc, Nat.add_comm 1]

theorem writeCells_of_quiet (values : List Word) : ∀ {s : State} (_ : s.portbQuiet) (a b : Nat),
    (s.writeCells a values) = { s with x := (s.writeCells a values).x } ∧
    (s.writeCells a values).memRead b =
      if a ≤ b ∧ b < a + values.length ∧ b < 64 then values.getD (b - a) 0 else s.memRead b := by
  induction values with
  | nil => intro s h a b; simp [State.writeCells, portbPoint_of_quiet h]; omega
  | cons v values ih =>
    intro s h a b
    simp only [State.writeCells, portbPoint_of_quiet h]
    obtain ⟨h1, h2⟩ := ih (quiet_memWrite h a v) (a + 1) b
    refine ⟨by rw [h1, memWrite_frame], ?_⟩
    rw [h2, memRead_memWrite]
    by_cases hb : b = a
    · subst hb
      by_cases h64 : b < 64 <;> simp [h64]
    · by_cases hab : a + 1 ≤ b
      · have e : b - a = (b - (a + 1)) + 1 := by omega
        simp only [hb, false_and, if_false, e, List.getD_cons_succ, List.length_cons]
        congr 1
        simp only [eq_iff_iff]
        omega
      · rw [if_neg (by omega), if_neg (by omega), if_neg (by simp; omega)]

@[simp] theorem readCells_length (n : Nat) : ∀ (s : State) (a : Nat), (s.readCells a n).1.length = n := by
  induction n with
  | zero => intro s a; rfl
  | succ n ih => intro s a; simp [State.readCells, ih]

/-! The points of R52, and the accesses of a request as a sequence of them. -/

theorem afterPoints_succ (n : Nat) : ∀ s : State, s.afterPoints (n+1) = (s.afterPoints n).portbPoint := by
  induction n with
  | zero => intro s; rfl
  | succ n ih => intro s; exact ih s.portbPoint

theorem storeOnly_afterPoints (n : Nat) : ∀ s : State, s.storeOnly (s.afterPoints n) := by
  induction n with
  | zero => exact fun s => .refl s
  | succ n ih => exact fun s => (storeOnly_portbPoint s).trans (ih _)

/-- The reads of a request: value `i` is what its cell holds after `i + 1` points. -/
theorem readCells_eq (n : Nat) : ∀ (s : State) (a : Nat), s.readCells a n =
   ((List.range n).map fun i => (s.afterPoints (i+1)).memRead (a+i), s.afterPoints (n+1)) := by
  induction n with
  | zero => intro s a; rfl
  | succ n ih =>
    intro s a
    simp only [State.readCells, ih, List.range_succ_eq_map, List.map_cons, List.map_map]
    simp [Function.comp_def, State.afterPoints, Nat.add_assoc, Nat.add_comm 1]

/-- The writes of a request: before each a point, after the last one more. -/
theorem writeCells_fold (vs : List Word) : ∀ (s : State) (a : Nat), s.writeCells a vs =
   ((List.range vs.length).foldl (fun u i => u.portbPoint.memWrite (a+i) (vs.getD i 0)) s).portbPoint := by
  induction vs with
  | nil => intro s a; rfl
  | cons v vs ih =>
    intro s a
    simp only [State.writeCells, ih, List.length_cons, List.range_succ_eq_map, List.foldl_cons, List.foldl_map]
    simp [Nat.add_assoc, Nat.add_comm 1]

theorem storeOnly_writes (l : List Nat) (a : Nat) (g : Nat → Word) : ∀ s : State, s.storeOnly (l.foldl (fun u i => u.portbPoint.memWrite (a+i) (g i)) s) := by
  induction l with
  | nil => intro s; exact .refl s
  | cons i l ih => intro s; exact ((storeOnly_portbPoint s).trans (storeOnly_memWrite _ _ _)).trans (ih _)

end Sys2Proof.Machine
end

