-- ==== Sys2Proof/Laws/Requests.lean ====
section
/-! SUPPORT. What a request can do, said once. -/

namespace Sys2Proof.Machine

/-- A request's instruction does what the dispatcher does with the request. -/
@[simp] theorem exec_request (req : Request) (s : State) : exec req.toInstr s = .next (s.serve req) := by
  cases req <;> rfl

/-- `t` is `s` after exactly one reply of `bytes` and CRC: besides the reply, only the cells, PORTB's inputs and outputs and
the status can differ. -/
def State.answered (s : State) (bytes : List Byte) (t : State) : Prop :=
  t = { s with x := t.x, portbSeen := t.portbSeen, portbSchedule := t.portbSchedule, status := t.status,
               dstate := .responding, sent := s.sent ++ [crcAppend bytes], txCount := satInc s.cfg.ctrWidth s.txCount }

theorem answered_of_storeOnly {s u : State} (h : s.storeOnly u) (bytes : List Byte) :
    s.answered bytes (u.forward bytes) := by
  unfold State.answered
  rw [forward_eq, h]

theorem answered_raise (s : State) (bytes : List Byte) : s.answered bytes (s.forward bytes) :=
  answered_of_storeOnly (State.storeOnly.refl s) bytes

theorem answered_raiseLength (s : State) (addr fn : Byte) :
    s.answered [addr, fn ||| 0x80#8, 0x03#8] (s.raiseLength addr fn) := rfl

/-- All that RHR can do (R130). -/
theorem serveRead_cases (s : State) (addr : Byte) (op : PairOperands) :
    (∃ p, op = .short p ∧ s.serveRead addr op = s.raiseLength addr 0x03#8) ∨
    (∃ a q ig, op = .fields a q ig ∧ s.validRange a.toNat q.toNat = false ∧
      s.serveRead addr op = s.forward [addr, 0x83#8, 0x02#8]) ∨
    (∃ a q ig, op = .fields a q ig ∧ s.validRange a.toNat q.toNat = true ∧
      s.serveRead addr op = (s.readCells a.toNat q.toNat).2.forward
        (addr :: 0x03#8 :: readPayload (s.readCells a.toNat q.toNat).1)) := by
  cases op with
  | short p => exact .inl ⟨p, rfl, rfl⟩
  | fields a q ig =>
    by_cases h : s.validRange a.toNat q.toNat
    · exact .inr (.inr ⟨a, q, ig, rfl, h, by simp [State.serveRead, h]⟩)
    · exact .inr (.inl ⟨a, q, ig, rfl, by simpa using h, by simp [State.serveRead, h, ExceptionCode.byte]⟩)

/-- All that WSR can do (R131). -/
theorem serveWrite_cases (s : State) (addr : Byte) (op : PairOperands) :
    (∃ p, op = .short p ∧ s.serveWrite addr op = s.raiseLength addr 0x06#8) ∨
    (∃ a v ig, op = .fields a v ig ∧ s.validRange a.toNat 1 = false ∧
      s.serveWrite addr op = s.forward [addr, 0x86#8, 0x02#8]) ∨
    (∃ a v ig, op = .fields a v ig ∧ s.validRange a.toNat 1 = true ∧
      s.serveWrite addr op = (s.writeCells a.toNat [v]).forward [addr, 0x06#8, hi a, lo a, hi v, lo v]) := by
  cases op with
  | short p => exact .inl ⟨p, rfl, rfl⟩
  | fields a v ig =>
    by_cases h : s.validRange a.toNat 1
    · exact .inr (.inr ⟨a, v, ig, rfl, h, by simp [State.serveWrite, h]⟩)
    · exact .inr (.inl ⟨a, v, ig, rfl, by simpa using h, by simp [State.serveWrite, h, ExceptionCode.byte]⟩)

/-- All that WMR can do (R132). -/
theorem serveWriteMultiple_cases (s : State) (addr : Byte) (op : MultiOperands) :
    (∃ p, op = .badLength p ∧ s.serveWriteMultiple addr op = s.raiseLength addr 0x10#8) ∨
    (∃ a q bc d, op = .fields a q bc d ∧ bc.toNat ≠ 2 * q.toNat ∧
      s.serveWriteMultiple addr op = s.forward [addr, 0x90#8, 0x03#8]) ∨
    (∃ a q bc d, op = .fields a q bc d ∧ bc.toNat = 2 * q.toNat ∧ s.validRange a.toNat q.toNat = false ∧
      s.serveWriteMultiple addr op = s.forward [addr, 0x90#8, 0x02#8]) ∨
    (∃ a q bc d, op = .fields a q bc d ∧ bc.toNat = 2 * q.toNat ∧ s.validRange a.toNat q.toNat = true ∧
      s.serveWriteMultiple addr op =
        (s.writeCells a.toNat (wordsOf d)).forward [addr, 0x10#8, hi a, lo a, hi q, lo q]) := by
  cases op with
  | badLength p => exact .inl ⟨p, rfl, rfl⟩
  | fields a q bc d =>
    by_cases hb : bc.toNat = 2 * q.toNat
    · by_cases h : s.validRange a.toNat q.toNat
      · exact .inr (.inr (.inr ⟨a, q, bc, d, rfl, hb, h, by simp [State.serveWriteMultiple, byteCountMatches, hb, h]⟩))
      · exact .inr (.inr (.inl ⟨a, q, bc, d, rfl, hb, by simpa using h,
          by simp [State.serveWriteMultiple, byteCountMatches, hb, h, ExceptionCode.byte]⟩))
    · exact .inr (.inl ⟨a, q, bc, d, rfl, hb,
        by simp [State.serveWriteMultiple, byteCountMatches, hb, ExceptionCode.byte]⟩)

/-- Every request is answered once, whatever it is (R116, R184). -/
theorem serve_answers (s : State) (req : Request) : ∃ bytes, s.answered bytes (s.serve req) := by
  cases req with
  | readHoldingRegisters addr op =>
    show ∃ bytes, s.answered bytes (s.serveRead addr op)
    rcases serveRead_cases s addr op with ⟨_, _, h⟩ | ⟨_, _, _, _, _, h⟩ | ⟨a, q, _, _, _, h⟩ <;> rw [h]
    · exact ⟨_, answered_raiseLength s addr _⟩
    · exact ⟨_, answered_raise s _⟩
    · exact ⟨_, answered_of_storeOnly (storeOnly_readCells _ s _) _⟩
  | writeSingleRegister addr op =>
    show ∃ bytes, s.answered bytes (s.serveWrite addr op)
    rcases serveWrite_cases s addr op with ⟨_, _, h⟩ | ⟨_, _, _, _, _, h⟩ | ⟨_, _, _, _, _, h⟩ <;> rw [h]
    · exact ⟨_, answered_raiseLength s addr _⟩
    · exact ⟨_, answered_raise s _⟩
    · exact ⟨_, answered_of_storeOnly (storeOnly_writeCells _ s _) _⟩
  | writeMultipleRegisters addr op =>
    show ∃ bytes, s.answered bytes (s.serveWriteMultiple addr op)
    rcases serveWriteMultiple_cases s addr op with
      ⟨_, _, h⟩ | ⟨_, _, _, _, _, _, h⟩ | ⟨_, _, _, _, _, _, _, h⟩ | ⟨_, _, _, _, _, _, _, h⟩ <;> rw [h]
    · exact ⟨_, answered_raiseLength s addr _⟩
    · exact ⟨_, answered_raise s _⟩
    · exact ⟨_, answered_raise s _⟩
    · exact ⟨_, answered_of_storeOnly (storeOnly_writeCells _ s _) _⟩
  | illegalFunction addr fn p => exact ⟨_, answered_raise s _⟩

/-- What no request touches, whatever it is and whatever PORTB does. -/
theorem serve_fields (s : State) (r : Request) : (s.serve r).cfg = s.cfg ∧ (s.serve r).rxCount = s.rxCount ∧ (s.serve r).inbox = s.inbox ∧
  (s.serve r).buf = s.buf ∧ (s.serve r).widx = s.widx ∧ (s.serve r).appended = s.appended ∧ (s.serve r).dstate = .responding ∧
  (s.serve r).txCount = satInc s.cfg.ctrWidth s.txCount ∧ ∃ b, (s.serve r).sent = s.sent ++ [crcAppend b] := by
  obtain ⟨b, h⟩ := serve_answers s r
  rw [h]
  exact ⟨rfl, rfl, rfl, rfl, rfl, rfl, rfl, rfl, _, rfl⟩

/-- `function | 0x80` has bit 7 set (R171). -/
theorem setBit7 : ∀ fn : Byte, (fn ||| 0x80#8).getLsbD 7 = true := by decide +kernel

/-- All that a request can do: which frame it transmits, and what it does to the store. -/
theorem serve_cases (s : State) (req : Request) :
    ∃ addr fn p, (s.serve req).sent = s.sent ++ [crcAppend (addr :: fn :: p)] ∧
   ((fn.getLsbD 7 = true ∧ p.length = 1 ∧ (s.serve req).x = s.x) ∨
    (fn = 0x03#8 ∧ ∃ a q ig, req = .readHoldingRegisters addr (.fields a q ig) ∧ s.validRange a.toNat q.toNat = true ∧
      p = readPayload (s.readCells a.toNat q.toNat).1 ∧ (s.serve req).x = (s.readCells a.toNat q.toNat).2.x) ∨
    (fn = 0x06#8 ∧ ∃ a v ig, req = .writeSingleRegister addr (.fields a v ig) ∧ p = [hi a, lo a, hi v, lo v] ∧
      s.validRange a.toNat 1 = true ∧ (s.serve req).x = (s.writeCells a.toNat [v]).x) ∨
    (fn = 0x10#8 ∧ ∃ a q bc d, req = .writeMultipleRegisters addr (.fields a q bc d) ∧ p = [hi a, lo a, hi q, lo q] ∧
      bc.toNat = 2 * q.toNat ∧ s.validRange a.toNat q.toNat = true ∧
      (s.serve req).x = (s.writeCells a.toNat (wordsOf d)).x)) := by
  cases req with
  | readHoldingRegisters addr op =>
    rcases serveRead_cases s addr op with ⟨p, e, h⟩ | ⟨a, q, ig, e, hv, h⟩ | ⟨a, q, ig, e, hv, h⟩ <;> simp only [State.serve, h]
    · exact ⟨addr, 0x83#8, [0x03#8], rfl, .inl ⟨rfl, rfl, rfl⟩⟩
    · exact ⟨addr, 0x83#8, [0x02#8], rfl, .inl ⟨rfl, rfl, rfl⟩⟩
    · exact ⟨addr, 0x03#8, _, by simp only [forward_sent, readCells_sent], .inr (.inl ⟨rfl, a, q, ig, by rw [e], hv, rfl, rfl⟩)⟩
  | writeSingleRegister addr op =>
    rcases serveWrite_cases s addr op with ⟨p, e, h⟩ | ⟨a, q, ig, e, hv, h⟩ | ⟨a, q, ig, e, hv, h⟩ <;> simp only [State.serve, h]
    · exact ⟨addr, 0x86#8, [0x03#8], rfl, .inl ⟨rfl, rfl, rfl⟩⟩
    · exact ⟨addr, 0x86#8, [0x02#8], rfl, .inl ⟨rfl, rfl, rfl⟩⟩
    · exact ⟨addr, 0x06#8, [hi a, lo a, hi q, lo q], by simp, .inr (.inr (.inl ⟨rfl, a, q, ig, by rw [e], rfl, hv, rfl⟩))⟩
  | writeMultipleRegisters addr op =>
    rcases serveWriteMultiple_cases s addr op with ⟨p, e, h⟩ | ⟨a, q, bc, d, e, hv, h⟩ | ⟨a, q, bc, d, e, hb, hv, h⟩ | ⟨a, q, bc, d, e, hb, hv, h⟩ <;> simp only [State.serve, h]
    · exact ⟨addr, 0x90#8, [0x03#8], rfl, .inl ⟨rfl, rfl, rfl⟩⟩
    · exact ⟨addr, 0x90#8, [0x03#8], rfl, .inl ⟨rfl, rfl, rfl⟩⟩
    · exact ⟨addr, 0x90#8, [0x02#8], rfl, .inl ⟨rfl, rfl, rfl⟩⟩
    · exact ⟨addr, 0x10#8, [hi a, lo a, hi q, lo q], by simp, .inr (.inr (.inr ⟨rfl, a, q, bc, d, by rw [e], rfl, hb, hv, rfl⟩))⟩
  | illegalFunction addr fn p => exact ⟨addr, fn ||| 0x80#8, [0x01#8], rfl, .inl ⟨setBit7 fn, rfl, rfl⟩⟩

end Sys2Proof.Machine
end

