-- ==== Sys2Proof/Laws/Step.lean ====
section
/-! SUPPORT. What an event and a step can do, said once. -/

namespace Sys2Proof.Machine

/-- What each event does to an idle engine. -/
def State.take (s : State) : Event → State
  | .rxByte b  => s.receive b
  | .onTimeout => s.timeout
  | .reset     => s.reinit

/-- An event's instruction runs in Idle and is refused elsewhere (R187). -/
theorem exec_event (e : Event) (s : State) :
    exec e.toInstr s = if s.dstate = .idle then .next (s.take e) else .refused .eventOverlap := by
  cases e <;> rfl

/-- All that a step with a next state can have done. -/
theorem step_next {s t : State} (h : step s = .next t) :
    s.cfg.wf = true ∧
    ((s.inbox = [] ∧ t = s.begin []) ∨
     (∃ op rest, s.inbox = .portb op :: rest ∧ t = (s.begin rest).portbStep op) ∨
     (∃ e rest, s.inbox = .event e :: rest ∧ s.dstate = .idle ∧ t = (s.begin rest).take e)) := by
  unfold step at h
  split at h
  · next hc =>
    refine ⟨hc, ?_⟩
    split at h
    · next hi => exact .inl ⟨hi, by cases h; rfl⟩
    · next e rest hi =>
      rw [exec_event] at h
      split at h
      · next hd => exact .inr (.inr ⟨e, rest, hi, hd, by cases h; rfl⟩)
      · cases h
    · next op rest hi => exact .inr (.inl ⟨op, rest, hi, by cases h; rfl⟩)
  · cases h

/-- All that ON_TIMEOUT can do: a silent discard (R182), or one request served (R110). Either way it returns to Idle. -/
theorem timeout_cases (s : State) :
    (∃ r, decode s.cfg.slaveAddr s.frame = .error r ∧
      s.timeout = { s with appended := false, status := discardStatus r }.returnToIdle) ∨
    (∃ req, decode s.cfg.slaveAddr s.frame = .ok req ∧
      s.timeout = ({ s with appended := false, dstate := .decoding, status := .ok }.serve req).returnToIdle) := by
  rw [timeout_eq]
  unfold State.handleFrame
  split
  · next h4 =>
    unfold State.dispatch
    cases hd : decode s.cfg.slaveAddr s.frame with
    | error r =>
      refine .inl ⟨r, rfl, ?_⟩
      show (match decode s.cfg.slaveAddr s.frame with | .error r => _ | .ok req => _ : State).returnToIdle = _
      rw [hd]
      rfl
    | ok req =>
      refine .inr ⟨req, rfl, ?_⟩
      show (match decode s.cfg.slaveAddr s.frame with | .error r => _ | .ok req => _ : State).returnToIdle = _
      rw [hd]
      rfl
  · next h4 =>
    have h4 : s.widx < 4 := Nat.lt_of_not_le h4
    left
    unfold State.runt
    by_cases h0 : s.widx = 0
    · refine ⟨.empty, (decode_empty_iff _ _).2 (by simpa using h0), ?_⟩
      simp only [h0, if_true]
      rfl
    · refine ⟨.runt, (decode_runt_iff _ _).2 (by simp; omega), ?_⟩
      simp only [h0, if_false]
      rfl

/-- All that RX_BYTE can do (R90, R91). -/
theorem receive_cases (s : State) (b : Byte) :
    (s.widx < s.cfg.bufCap ∧ s.receive b =
      { s with rxCount := satInc s.cfg.ctrWidth s.rxCount, buf := s.buf.write s.widx b, widx := s.widx + 1, appended := true }) ∨
    (s.cfg.bufCap ≤ s.widx ∧ s.receive b = { s with rxCount := satInc s.cfg.ctrWidth s.rxCount, appended := false }) := by
  unfold State.receive
  by_cases h : s.widx < s.cfg.bufCap
  · exact .inl ⟨h, by simp [h, State.countRx]⟩
  · exact .inr ⟨by omega, by simp [h, State.countRx]⟩

theorem satInc_le (w c : Nat) (h : c < 2 ^ w) : satInc w c < 2 ^ w := by
  unfold satInc
  split <;> omega

theorem le_satInc (w c : Nat) : c ≤ satInc w c := by
  unfold satInc
  split <;> omega

theorem timeout_next {s : State} (h : s.dstate = .idle) : exec .onTimeout s = .next s.timeout := by
  simp [exec, execOnTimeout, whenIdle, h]

/-- A frame that does not decode is discarded. -/
theorem discarded {s : State} (h : s.dstate = .idle) {r} (hr : decode s.cfg.slaveAddr s.frame = .error r) :
   exec .onTimeout s = .next { s with status := discardStatus r, widx := 0, buf := [], appended := false } := by
  rw [timeout_next h]
  rcases timeout_cases s with ⟨r', h1, h'⟩ | ⟨r', h1, h'⟩
  · have : r' = r := by simp_all
    subst this
    rw [h']; simp [State.returnToIdle, h]
  · simp_all

/-- A frame that decodes is served. -/
theorem served {s : State} (h : s.dstate = .idle) {r} (hr : decode s.cfg.slaveAddr s.frame = .ok r) :
   exec .onTimeout s = .next ({ s with appended := false, dstate := .decoding, status := .ok }.serve r).returnToIdle := by
  rw [timeout_next h]
  rcases timeout_cases s with ⟨r', h1, h'⟩ | ⟨r', h1, h'⟩
  · simp_all
  · have : r' = r := by simp_all
    subst this
    rw [h']

/-- One event list after another. -/
theorem runEvents_append (es es' : List Event) : ∀ {a b : State}, runEvents es a = .next b →
    runEvents (es ++ es') a = runEvents es' b := by
  induction es with
  | nil => intro a b h; cases h; rfl
  | cons e es ih =>
    intro a b h
    simp only [runEvents, List.cons_append] at h ⊢
    cases heq : exec e.toInstr a with
    | next c => rw [heq] at h; exact ih h
    | fault r => rw [heq] at h; cases h
    | refused r => rw [heq] at h; cases h

end Sys2Proof.Machine
end

