-- ==== Sys2Proof/Laws/Alike.lean ====
section
/-! SUPPORT. What a request looks at: the configuration, the store and PORTB's schedule. Two states alike in these are
served alike (R118, R119). -/

namespace Sys2Proof.Machine

/-- The two states agree in all that a request's procedure looks at. -/
def State.alike (s t : State) : Prop := s.cfg = t.cfg ∧ s.x = t.x ∧ s.portbSchedule = t.portbSchedule

/-- Besides, both have shown PORTB the same values since `s` and `t`. -/
def State.alikeFrom (s t s' t' : State) : Prop :=
  s'.alike t' ∧ ∃ seen, s'.portbSeen = s.portbSeen ++ seen ∧ t'.portbSeen = t.portbSeen ++ seen

theorem State.alikeFrom.refl {s t : State} (h : s.alike t) : s.alikeFrom t s t := ⟨h, [], by simp, by simp⟩

theorem State.alikeFrom.trans {s t u v w z : State} (h : s.alikeFrom t u v) (k : u.alikeFrom v w z) :
    s.alikeFrom t w z := by
  obtain ⟨_, a, ha, ha'⟩ := h
  obtain ⟨k, b, hb, hb'⟩ := k
  exact ⟨k, a ++ b, by rw [hb, ha, List.append_assoc], by rw [hb', ha', List.append_assoc]⟩

theorem alike_memRead {s t : State} (h : s.alike t) (a : Nat) : s.memRead a = t.memRead a := memRead_congr h.2.1 a

theorem alike_memWrite {s t : State} (h : s.alike t) (a : Nat) (v : Word) :
    s.alikeFrom t (s.memWrite a v) (t.memWrite a v) := by
  obtain ⟨hc, hx, hp⟩ := h
  unfold State.memWrite
  split
  · exact ⟨⟨hc, by simp [hx], hp⟩, [], by simp, by simp⟩
  · exact .refl ⟨hc, hx, hp⟩

theorem alike_portbStep {s t : State} (h : s.alike t) (op : PortbOp) :
    s.alikeFrom t (s.portbStep op) (t.portbStep op) := by
  cases op with
  | read a => exact ⟨h, [s.memRead a], rfl, by rw [alike_memRead h]; rfl⟩
  | write a v => exact alike_memWrite h a v

theorem alike_portbRun (ops : List PortbOp) :
    ∀ {s t : State}, s.alike t → s.alikeFrom t (s.portbRun ops) (t.portbRun ops) := by
  induction ops with
  | nil => exact .refl
  | cons op ops ih => exact fun h => (alike_portbStep h op).trans (ih (alike_portbStep h op).1)

theorem alike_portbPoint {s t : State} (h : s.alike t) : s.alikeFrom t s.portbPoint t.portbPoint := by
  obtain ⟨c, x, _, _, _, _, _, _, _, _, _, _, sch⟩ := s
  obtain ⟨_, _, _, _, _, _, _, _, _, _, _, _, _⟩ := t
  obtain ⟨hc, hx, hp⟩ := h
  cases hc; cases hx; cases hp
  unfold State.portbPoint
  cases c.granularity with
  | betweenEvents => exact .refl ⟨rfl, rfl, rfl⟩
  | betweenCells =>
    cases sch with
    | nil => exact .refl ⟨rfl, rfl, rfl⟩
    | cons ops rest => exact alike_portbRun ops ⟨rfl, rfl, rfl⟩

theorem alike_readCells (n : Nat) : ∀ {s t : State} (a : Nat), s.alike t →
    (s.readCells a n).1 = (t.readCells a n).1 ∧ s.alikeFrom t (s.readCells a n).2 (t.readCells a n).2 := by
  induction n with
  | zero => exact fun a h => ⟨rfl, alike_portbPoint h⟩
  | succ n ih =>
    intro s t a h
    have hp := alike_portbPoint h
    obtain ⟨h1, h2⟩ := ih (a + 1) hp.1
    exact ⟨by simp only [State.readCells, h1, alike_memRead hp.1], hp.trans h2⟩

theorem alike_writeCells (values : List Word) : ∀ {s t : State} (a : Nat), s.alike t →
    s.alikeFrom t (s.writeCells a values) (t.writeCells a values) := by
  induction values with
  | nil => exact fun a h => alike_portbPoint h
  | cons v values ih =>
    intro s t a h
    have hp := alike_portbPoint h
    have hw := alike_memWrite hp.1 a v
    exact (hp.trans hw).trans (ih (a + 1) hw.1)

/-- Both states have been answered with the same frame and recorded the same. -/
def State.servedAlike (s t s' t' : State) : Prop :=
  s.alikeFrom t s' t' ∧ (∃ bytes, s.answered bytes s' ∧ t.answered bytes t') ∧
    (s'.status = s.status ∧ t'.status = t.status ∨ s'.status = .frameError ∧ t'.status = .frameError)

theorem servedAlike_forward {s t u v : State} (h : s.alikeFrom t u v) (hs : s.storeOnly u) (ht : t.storeOnly v)
    (bytes : List Byte) : s.servedAlike t (u.forward bytes) (v.forward bytes) :=
  ⟨h, ⟨bytes, answered_of_storeOnly hs bytes, answered_of_storeOnly ht bytes⟩, .inl ⟨hs.status, ht.status⟩⟩

theorem servedAlike_raise {s t : State} (h : s.alike t) (bytes : List Byte) :
    s.servedAlike t (s.forward bytes) (t.forward bytes) := servedAlike_forward (.refl h) (.refl s) (.refl t) bytes

theorem servedAlike_raiseLength {s t : State} (h : s.alike t) (addr fn : Byte) :
    s.servedAlike t (s.raiseLength addr fn) (t.raiseLength addr fn) :=
  ⟨.refl h, ⟨_, answered_raiseLength s addr fn, answered_raiseLength t addr fn⟩, .inr ⟨rfl, rfl⟩⟩

theorem serve_alike {s t : State} (h : s.alike t) (req : Request) : s.servedAlike t (s.serve req) (t.serve req) := by
  have hv : ∀ a q, s.validRange a q = t.validRange a q := fun a q => by simp only [State.validRange, h.1]
  cases req with
  | readHoldingRegisters addr op =>
    cases op with
    | short p => exact servedAlike_raiseLength h addr _
    | fields a q ig =>
      obtain ⟨h1, h2⟩ := alike_readCells q.toNat a.toNat h
      simp only [State.serve, State.serveRead, ← hv, ← h1]
      split
      · exact servedAlike_forward h2 (storeOnly_readCells _ _ _) (storeOnly_readCells _ _ _) _
      · exact servedAlike_raise h _
  | writeSingleRegister addr op =>
    cases op with
    | short p => exact servedAlike_raiseLength h addr _
    | fields a v ig =>
      simp only [State.serve, State.serveWrite, ← hv]
      split
      · exact servedAlike_forward (alike_writeCells _ _ h) (storeOnly_writeCells _ _ _) (storeOnly_writeCells _ _ _) _
      · exact servedAlike_raise h _
  | writeMultipleRegisters addr op =>
    cases op with
    | badLength p => exact servedAlike_raiseLength h addr _
    | fields a q bc d =>
      simp only [State.serve, State.serveWriteMultiple, ← hv]
      split
      · exact servedAlike_raise h _
      · split
        · exact servedAlike_forward (alike_writeCells _ _ h) (storeOnly_writeCells _ _ _) (storeOnly_writeCells _ _ _) _
        · exact servedAlike_raise h _
  | illegalFunction addr fn p => exact servedAlike_raise h _

end Sys2Proof.Machine
end

