-- ==== Sys2Proof/Laws/Crc.lean ====
section
/-! SUPPORT. The CRC engine: what one step does to a value, byte by byte. -/

namespace Sys2Proof

/-- The eight rounds are linear over XOR. -/
theorem rounds_xor (n : Nat) : ∀ a b : Word, crcRounds n (a ^^^ b) = crcRounds n a ^^^ crcRounds n b := by
  induction n with
  | zero => intro a b; rfl
  | succ n ih =>
    intro a b
    simp only [crcRounds, BitVec.getLsbD_xor]
    have hs : (a ^^^ b) >>> 1 = (a >>> 1) ^^^ (b >>> 1) := by
      apply BitVec.eq_of_getLsbD_eq; intro i; simp
    rcases ha : a.getLsbD 0 <;> rcases hb : b.getLsbD 0 <;> simp [ih, hs]
    · ac_rfl
    · ac_rfl
    · rw [show crcRounds n (a >>> 1) ^^^ crcRounds n 40961#16 ^^^ (crcRounds n (b >>> 1) ^^^ crcRounds n 40961#16) =
        crcRounds n (a >>> 1) ^^^ crcRounds n (b >>> 1) ^^^ (crcRounds n 40961#16 ^^^ crcRounds n 40961#16) by ac_rfl]
      simp

/-- A byte in the high half is shifted down untouched. -/
theorem rounds_hi : ∀ h : Byte, crcRounds 8 (h.setWidth 16 <<< 8) = h.setWidth 16 := by decide +kernel

theorem rounds_lo_inj : ∀ l : Byte, (crcRounds 8 (l.setWidth 16)).extractLsb' 8 8 = 0#8 → l = 0#8 := by decide +kernel

/-- A byte in the low half leaves nothing exactly when it is 0. -/
theorem rounds_zero_iff (l : Byte) : crcRounds 8 (l.setWidth 16) = 0#16 ↔ l = 0#8 := by
  constructor
  · intro h; apply rounds_lo_inj; rw [h]; rfl
  · rintro rfl; rfl

/-- A word as its two halves. -/
theorem split_word (c : Word) : c = ((hi c).setWidth 16 <<< 8) ^^^ (lo c).setWidth 16 := by
  apply BitVec.eq_of_getLsbD_eq
  intro i hi'
  simp [hi, lo]
  by_cases h : i < 8
  · simp [h]; omega
  · simp [h]
    have e : 8 + (i - 8) = i := by omega
    have : i - 8 < 8 := by omega
    simp [this, e, hi']; omega

/-- One step: the high half moves down, the low half and the byte go through the rounds. -/
theorem step_split (c : Word) (l : Byte) : crcStep c l = (hi c).setWidth 16 ^^^ crcRounds 8 ((lo c ^^^ l).setWidth 16) := by
  unfold crcStep
  conv_lhs => rw [split_word c, BitVec.xor_assoc, ← BitVec.setWidth_xor, rounds_xor, rounds_hi]

end Sys2Proof
end

