-- ==== Sys2Proof/Laws/Frames.lean ====
section
/-! SUPPORT. A frame and its fields: what the payload of a frame is, and what the parsers read from it. -/

namespace Sys2Proof

theorem crcOk_crcAppend (s : List Byte) : crcOk (crcAppend s) = true := by
  rw [crcOk_iff]
  have := crcAppend_trailer s
  simp only [crcAppend_length]
  rw [show s.length + 2 - 2 = s.length by omega, show s.length + 2 - 1 = s.length + 1 by omega, crcAppend_take, this]

/-- The bytes before the CRC stand where they stood. -/
theorem crcAppend_getD (s : List Byte) (i : Nat) (h : i < s.length) : (crcAppend s).getD i 0 = s.getD i 0 := by
  simp [crcAppend, List.getElem?_append_left h]

/-- The first bytes of a frame, listed by index. -/
theorem range_map_getD (f : List Byte) (n : Nat) (h : n ≤ f.length) : (List.range n).map (fun i => f.getD i 0) = f.take n := by
  apply List.ext_getElem
  · simp; omega
  · intro i h1 h2; simp at h1 h2; simp [List.getElem?_eq_getElem (show i < f.length by omega)]

/-- Byte `i` of the payload is byte `i + 2` of the frame (R60). -/
theorem payload_getD (f : Frame) (i : Nat) (h : i + 4 < f.length) : (payloadOf f).getD i 0 = f.getD (i + 2) 0 := by
  have : i + 2 < f.length - 2 := by omega
  simp only [payloadOf, List.getD_eq_getElem?_getD, List.getElem?_drop, List.getElem?_take, Nat.add_comm 2 i, this, if_true]

@[simp] theorem payload_length (f : Frame) : (payloadOf f).length = f.length - 4 := by simp [payloadOf]; omega

theorem eq_cons4 (p : List Byte) (h : 4 ≤ p.length) : p = p.getD 0 0 :: p.getD 1 0 :: p.getD 2 0 :: p.getD 3 0 :: p.drop 4 := by
  match p with
  | a :: b :: c :: d :: p => simp
  | [] | [_] | [_, _] | [_, _, _] => simp at h

theorem eq_cons5 (p : List Byte) (h : 5 ≤ p.length) : p = p.getD 0 0 :: p.getD 1 0 :: p.getD 2 0 :: p.getD 3 0 :: p.getD 4 0 :: p.drop 5 := by
  match p with
  | a :: b :: c :: d :: e :: p => simp
  | [] | [_] | [_, _] | [_, _, _] | [_, _, _, _] => simp at h

/-- The fields of a request 0x03 or 0x06 by their offsets in the frame (R61, R64, R65). -/
theorem pair_of_frame (f : Frame) (h : 8 ≤ f.length) : parsePair (payloadOf f) =
    .fields (be16 (f.getD 2 0) (f.getD 3 0)) (be16 (f.getD 4 0) (f.getD 5 0)) ((f.drop 6).take (f.length - 8)) := by
  rw [eq_cons4 (payloadOf f) (by rw [payload_length]; omega)]
  simp only [parsePair]
  rw [payload_getD f 0 (by omega), payload_getD f 1 (by omega), payload_getD f 2 (by omega), payload_getD f 3 (by omega)]
  congr 1
  simp [payloadOf, List.drop_take]
  congr 1

/-- The fields of a request 0x10 by their offsets in the frame (R61, R66). -/
theorem multi_of_frame (f : Frame) (h : f.length = 9 + (f.getD 6 0).toNat) : parseMulti (payloadOf f) =
    .fields (be16 (f.getD 2 0) (f.getD 3 0)) (be16 (f.getD 4 0) (f.getD 5 0)) (f.getD 6 0) ((f.drop 7).take (f.length - 9)) := by
  have hd : (payloadOf f).drop 5 = (f.drop 7).take (f.length - 9) := by
    simp [payloadOf, List.drop_take]
    congr 1
  rw [eq_cons5 (payloadOf f) (by rw [payload_length]; omega)]
  simp only [parseMulti]
  rw [payload_getD f 0 (by omega), payload_getD f 1 (by omega), payload_getD f 2 (by omega), payload_getD f 3 (by omega), payload_getD f 4 (by omega), hd]
  rw [if_pos]
  simp; simp at h; omega

/-- A request 0x10 of another length has no fields (R117, R136). -/
theorem multi_bad_of_frame (f : Frame) (h4 : 4 ≤ f.length) (h : f.length < 9 ∨ f.length ≠ 9 + (f.getD 6 0).toNat) : parseMulti (payloadOf f) =
    .badLength (payloadOf f) := by
  by_cases h9 : f.length < 9
  · have := payload_length f
    unfold parseMulti
    split
    · next hp => rw [hp] at this; simp at this; omega
    · rfl
  · have h' := h.resolve_left h9
    conv_lhs => rw [eq_cons5 (payloadOf f) (by rw [payload_length]; omega)]
    simp only [parseMulti]
    rw [if_neg, ← eq_cons5 _ (by rw [payload_length]; omega)]
    rw [payload_getD f 4 (by omega)]
    simp [payloadOf]
    simp at h'
    omega

/-- Value `i` of the data of a request 0x10. -/
theorem words_getD (data : List Byte) (i : Nat) (h : 2*i+1 < data.length) : (wordsOf data).getD i 0 = be16 (data.getD (2 * i) 0) (data.getD (2 * i + 1) 0) := by
  rw [List.getD_eq_getElem?_getD, wordsOf_getElem? data i h]; rfl

/-- The validator's three conditions (R152). -/
theorem validRange_iff (t : List Block) (a q : Nat) : validRange t a q = true ↔ 1 ≤ q ∧ a + q ≤ 64 ∧ ∃ B ∈ t, B.start ≤ a ∧ a + q ≤ B.start + B.length := by
  simp [validRange, Block.covers]

end Sys2Proof

namespace Sys2Proof.Machine

/-- The frame's first bytes are the buffer's. -/
theorem frame_take (s : State) (n : Nat) (h : n ≤ s.widx) : s.frame.take n = (List.range n).map s.buf.read := by
  apply List.ext_getElem
  · simp; omega
  · intro i h1 h2; simp [State.frame]

end Sys2Proof.Machine
end

