-- ==== Sys2Proof/Laws/PerInstr.lean ====
section
/-! SUPPORT. Statements made instruction by instruction. FrameLength: how long the frame of a well-formed instruction is
(R76): an event has none, a request has 4 to BUF_CAP bytes, a reply 5 to 133. -/

namespace Sys2Proof.Laws.FrameLength

/-- The frame of a well-formed instruction is empty (an event), fits the frame buffer (a request) or is a reply's. -/
def Statement (i : Instr) : Prop :=
  ∀ c : Config, i.wf c = true →
    encode i = [] ∨ (4 ≤ (encode i).length ∧ (encode i).length ≤ c.bufCap) ∨
      (5 ≤ (encode i).length ∧ (encode i).length ≤ 133)

theorem rxByte (b : Byte) : Statement (.rxByte b) := fun _ _ => .inl rfl

theorem onTimeout : Statement .onTimeout := fun _ _ => .inl rfl

theorem reset : Statement .reset := fun _ _ => .inl rfl

/-- What the three families of request have in common: the size check of WellFormed. -/
theorem of_fits (i : Instr) (c : Config) (addr fn : Byte) (p : List Byte)
    (hb : body i = addr :: fn :: p) (hf : requestFits c addr p.length = true) :
    4 ≤ (encode i).length ∧ (encode i).length ≤ c.bufCap := by
  simp only [requestFits, Bool.and_eq_true, decide_eq_true_eq] at hf
  simp only [encode, hb]
  simp
  omega

theorem readHoldingRegisters (addr : Byte) (op : PairOperands) : Statement (.readHoldingRegisters addr op) := by
  intro c h
  simp only [Instr.wf, Bool.and_eq_true] at h
  exact .inr (.inl (of_fits _ c addr 0x03#8 op.bytes rfl (by simpa using h.1)))

theorem writeSingleRegister (addr : Byte) (op : PairOperands) : Statement (.writeSingleRegister addr op) := by
  intro c h
  simp only [Instr.wf, Bool.and_eq_true] at h
  exact .inr (.inl (of_fits _ c addr 0x06#8 op.bytes rfl (by simpa using h.1)))

theorem writeMultipleRegisters (addr : Byte) (op : MultiOperands) : Statement (.writeMultipleRegisters addr op) := by
  intro c h
  simp only [Instr.wf, Bool.and_eq_true] at h
  exact .inr (.inl (of_fits _ c addr 0x10#8 op.bytes rfl (by simpa using h.1)))

theorem illegalFunction (addr function : Byte) (payload : List Byte) :
    Statement (.illegalFunction addr function payload) := by
  intro c h
  simp only [Instr.wf, Bool.and_eq_true] at h
  exact .inr (.inl (of_fits _ c addr function payload rfl h.1))

theorem replyRhr (addr : Byte) (values : List Word) : Statement (.replyRhr addr values) := by
  intro c h
  simp only [Instr.wf, Bool.and_eq_true, decide_eq_true_eq] at h
  refine .inr (.inr ?_)
  simp [encode, body]
  omega

theorem replyWsr (addr : Byte) (address value : Word) : Statement (.replyWsr addr address value) :=
  fun _ _ => .inr (.inr (by simp [encode, body]))

theorem replyWmr (addr : Byte) (start quantity : Word) : Statement (.replyWmr addr start quantity) :=
  fun _ _ => .inr (.inr (by simp [encode, body]))

theorem replyException (addr function : Byte) (code : ExceptionCode) : Statement (.replyException addr function code) :=
  fun _ _ => .inr (.inr (by simp [encode, body]))

end Sys2Proof.Laws.FrameLength
end

