-- ==== Sys2Proof/Machine/Notation.lean ====
section
/-! DEFINITION. The notation for requests of 30_encoding.md section 8 (R77): a line stands for the events that deliver it.
The word notation is the spec's; this file declares plain functions. -/

namespace Sys2Proof.Machine

/-- A line of R77. -/
inductive Line where
  | rhr (a q : Word)
  | wsr (a v : Word)
  | wmr (a : Word) (values : List Word)
  | raw (bytes : List Byte)
  | timeout
  /-- The `@s` prefix: another slave address in place of SLAVE_ADDR. -/
  | to (s : Byte) (line : Line)
  deriving DecidableEq, Repr

/-- The RX_BYTE events of a byte list, in order. -/
def deliver (bytes : List Byte) : List Event := bytes.map Event.rxByte

/-- The bytes R77 gives a line before the CRC are those of the request's format; the CRC follows, except for RAW. A WMR line
of 128 or more values has no expansion in R77, as 2q does not fit the one byteCount byte; here 2q is cut to 8 bits and q to
16, and the frame is delivered. DESIGN CHOICE, safe (log 23). -/
def Line.events (slaveAddr : Byte) : Line → List Event
  | .rhr a q      => deliver (encode (.readHoldingRegisters slaveAddr (.fields a q [])))
  | .wsr a v      => deliver (encode (.writeSingleRegister slaveAddr (.fields a v [])))
  | .wmr a values =>
      deliver (encode (.writeMultipleRegisters slaveAddr
        (.fields a (BitVec.ofNat 16 values.length) (BitVec.ofNat 8 (2 * values.length)) (bytesOf values))))
  | .raw bytes    => deliver bytes
  | .timeout      => [.onTimeout]
  | .to s line    => line.events s

end Sys2Proof.Machine
end

