-- ==== Sys2Proof/Tests/Slice0.lean ====
section
/-! SUPPORT. The model's own tests: words written out from the spec's formats, worked examples of
spec/95_test_vectors.md (named V-…, A1, R6, … there), and for each claim of Certificates/Slice0/Obligations.lean a witness of its
hypotheses. -/

namespace Sys2Proof.Tests

open Sys2Proof Sys2Proof.Machine

/-! Small states. -/

/-- The engine with the bytes of `f` received and the timeout delivered next. -/
def heard (f : Frame) (s : State) : State :=
  { s with buf := Memory.ofBytes 0 f, widx := f.length, inbox := [.event .onTimeout] }

/-- The reset state with frame `f` received. -/
def got (f : Frame) : State := heard f State.reset

/-- V-S1, P1: two cells written by PORTB after reset. -/
def stored (a : Nat) (v : Word) (b : Nat) (w : Word) : State := (State.reset.memWrite a v).memWrite b w

/-- The state after the step, or `s` itself where there is none. -/
def after (o : Host.Outcome State Fault Refusal) (s : State) : State :=
  match o with
  | .next t    => t
  | .fault _   => s
  | .refused _ => s

/-- The step answered a next state. -/
def ran (o : Host.Outcome State Fault Refusal) : Bool :=
  match o with
  | .next _    => true
  | .fault _   => false
  | .refused _ => false

/-- What the timeout that ends frame `f` transmits, from `s`, and the status it leaves. -/
def reply (f : Frame) (s : State) : List Frame × Status :=
  let t := after (step (heard f s)) s
  (t.sent, t.status)

/-! Frames of spec/95_test_vectors.md. -/

def rhr0x2 : Frame :=
  [0x01#8, 0x03#8, 0x00#8, 0x00#8, 0x00#8, 0x02#8, 0xC4#8, 0x0B#8]

def wsr0 : Frame :=
  [0x01#8, 0x06#8, 0x00#8, 0x00#8, 0x00#8, 0x1E#8, 0x09#8, 0xC2#8]

def wmr16x2 : Frame :=
  [0x01#8, 0x10#8, 0x00#8, 0x10#8, 0x00#8, 0x02#8, 0x04#8, 0x00#8, 0x0A#8, 0x01#8, 0x02#8, 0x52#8, 0xF0#8]

def unknown83 : Frame :=
  [0x01#8, 0x83#8, 0x41#8, 0x81#8]

def otherSlave : Frame :=
  [0x02#8, 0x03#8, 0x00#8, 0x00#8, 0x00#8, 0x02#8, 0xC4#8, 0x38#8]

def badCrc : Frame :=
  [0x01#8, 0x03#8, 0x00#8, 0x00#8, 0x00#8, 0x02#8, 0x0B#8, 0xC4#8]

def shortRead : Frame :=
  [0x01#8, 0x03#8, 0x40#8, 0x21#8]


/-! Well-formedness: one ill-formed term for each check, refused. -/

theorem test_wf_otherAddress :
    (Instr.readHoldingRegisters 0x02#8 (.fields 0x0000#16 0x0002#16 [])).wf Config.reference = false := by decide
theorem test_wf_tooLongForBuffer :
    (Instr.illegalFunction 0x01#8 0x08#8 [0x00#8]).wf { Config.reference with bufCap := 4 } = false := by decide
theorem test_wf_shortIsShort :
    (Instr.writeSingleRegister 0x01#8 (.short [0x00#8, 0x05#8, 0x12#8, 0x34#8])).wf Config.reference = false := by decide
theorem test_wf_dataLengthIsByteCount :
    (Instr.writeMultipleRegisters 0x01#8 (.fields 0x0010#16 0x0001#16 0x02#8 [0x00#8])).wf Config.reference = false := by
  decide
theorem test_wf_badLengthIsBad :
    (Instr.writeMultipleRegisters 0x01#8 (.badLength [0x00#8, 0x10#8, 0x00#8, 0x00#8, 0x00#8])).wf Config.reference = false := by
  decide
theorem test_wf_knownFunctionIsNotUnknown :
    ∀ fn ∈ [0x03#8, 0x06#8, 0x10#8], (Instr.illegalFunction 0x01#8 fn []).wf Config.reference = false := by decide
theorem test_wf_replyHasAValue : (Instr.replyRhr 0x01#8 []).wf Config.reference = false := by decide
theorem test_wf_replyHasAtMost64Values :
    (Instr.replyRhr 0x01#8 (List.replicate 65 0x0000#16)).wf Config.reference = false := by decide
theorem test_wf_repliesCarryTheAddress :
    (Instr.replyRhr 0x02#8 [0x0000#16]).wf Config.reference = false ∧
    (Instr.replyWsr 0x02#8 0x0000#16 0x001E#16).wf Config.reference = false ∧
    (Instr.replyWmr 0x02#8 0x0010#16 0x0002#16).wf Config.reference = false ∧
    (Instr.replyException 0x02#8 0x83#8 .illegalDataAddress).wf Config.reference = false := by decide
theorem test_wf_exceptionHasBit7 :
    (Instr.replyException 0x01#8 0x03#8 .illegalDataAddress).wf Config.reference = false := by decide
/-- R2, R4 (a) to (c). -/
theorem test_wf_config :
    { Config.reference with bufCap := 3 }.wf = false ∧
    { Config.reference with blocks := [⟨0, 0, "M1"⟩] }.wf = false ∧
    { Config.reference with blocks := [⟨49, 16, "M1"⟩] }.wf = false ∧
    { Config.reference with blocks := [⟨0, 16, "M1"⟩, ⟨15, 2, "M2"⟩] }.wf = false ∧
    { Config.reference with bufCap := 4, blocks := [⟨48, 16, "M1"⟩, ⟨47, 1, "M2"⟩] }.wf = true := by decide

/-! The CRC, 95_test_vectors.md section 2. -/

/-- The catalogue's check value for "123456789". -/
theorem test_crc_check : crc16 [0x31#8, 0x32#8, 0x33#8, 0x34#8, 0x35#8, 0x36#8, 0x37#8, 0x38#8, 0x39#8] = 0x4B37#16 := by
  decide +kernel
theorem test_crc_small : crc16 [] = 0xFFFF#16 ∧ crc16 [0x00#8] = 0x40BF#16 ∧ crc16 [0xFF#8] = 0x00FF#16 := by decide +kernel
theorem test_crc_appendsLowByteFirst : crcAppend [0x01#8, 0x83#8, 0x02#8] = [0x01#8, 0x83#8, 0x02#8, 0xC0#8, 0xF1#8] := by decide +kernel

/-! Decoding, each word written out from 30_encoding.md sections 3 and 4. -/

theorem test_decode_rhr :
    decode 0x01#8 rhr0x2 = .ok (.readHoldingRegisters 0x01#8 (.fields 0x0000#16 0x0002#16 [])) := rfl
/-- R14: bytes 6 and 7 are ignored. -/
theorem test_decode_rhrIgnored :
    decode 0x01#8 [0x01#8, 0x03#8, 0x00#8, 0x00#8, 0x00#8, 0x02#8, 0xAA#8, 0xBB#8, 0x2D#8, 0xD4#8]
      = .ok (.readHoldingRegisters 0x01#8 (.fields 0x0000#16 0x0002#16 [0xAA#8, 0xBB#8])) := rfl
theorem test_decode_rhrShort : decode 0x01#8 shortRead = .ok (.readHoldingRegisters 0x01#8 (.short [])) := rfl
theorem test_decode_wsr : decode 0x01#8 wsr0 = .ok (.writeSingleRegister 0x01#8 (.fields 0x0000#16 0x001E#16 [])) := rfl
theorem test_decode_wmr :
    decode 0x01#8 wmr16x2
      = .ok (.writeMultipleRegisters 0x01#8 (.fields 0x0010#16 0x0002#16 0x04#8 [0x00#8, 0x0A#8, 0x01#8, 0x02#8])) := rfl
/-- M8: a 6-byte frame has no byte 6. -/
theorem test_decode_wmrShort :
    decode 0x01#8 [0x01#8, 0x10#8, 0x00#8, 0x10#8, 0x01#8, 0xD1#8]
      = .ok (.writeMultipleRegisters 0x01#8 (.badLength [0x00#8, 0x10#8])) := rfl
theorem test_decode_unknown : decode 0x01#8 unknown83 = .ok (.illegalFunction 0x01#8 0x83#8 []) := rfl
theorem test_decode_discards :
    decode 0x01#8 [] = .error .empty ∧ decode 0x01#8 [0x01#8, 0x03#8, 0x40#8] = .error .runt ∧
    decode 0x01#8 otherSlave = .error .addressMismatch ∧ decode 0x01#8 badCrc = .error .crcError :=
  ⟨rfl, rfl, rfl, rfl⟩
theorem test_decode_replyRhr :
    decodeReply [0x01#8, 0x03#8, 0x04#8, 0x00#8, 0x32#8, 0x00#8, 0x2D#8, 0x9B#8, 0xE1#8] = .ok (.replyRhr 0x01#8 [0x0032#16, 0x002D#16]) := rfl
theorem test_decode_replyWsr : decodeReply wsr0 = .ok (.replyWsr 0x01#8 0x0000#16 0x001E#16) := rfl
theorem test_decode_replyWmr :
    decodeReply [0x01#8, 0x10#8, 0x00#8, 0x10#8, 0x00#8, 0x02#8, 0x40#8, 0x0D#8] = .ok (.replyWmr 0x01#8 0x0010#16 0x0002#16) := rfl
theorem test_decode_replyException :
    decodeReply [0x01#8, 0x83#8, 0x02#8, 0xC0#8, 0xF1#8] = .ok (.replyException 0x01#8 0x83#8 .illegalDataAddress) := rfl
theorem test_decode_replyDiscards :
    decodeReply [0x01#8, 0x83#8, 0x02#8, 0xC0#8] = .error .tooShort ∧
    decodeReply [0x01#8, 0x83#8, 0x02#8, 0xF1#8, 0xC0#8] = .error .crcError ∧
    decodeReply (crcAppend [0x01#8, 0x04#8, 0x00#8]) = .error .unknownFunction ∧
    decodeReply (crcAppend [0x01#8, 0x83#8, 0x04#8]) = .error .malformed := ⟨rfl, rfl, rfl, rfl⟩
/-- The notation of R77: `@02 RHR 0, 2` of P2 step 4. -/
theorem test_line : Line.events 0x01#8 (.to 0x02#8 (.rhr 0x0000#16 0x0002#16)) = deliver otherSlave := by decide +kernel
/-- P1 step 1, `WMR 32, [0x1234, 0xABCD, 0x0001]`. -/
theorem test_lineWmr : Line.events 0x01#8 (.wmr 0x0020#16 [0x1234#16, 0xABCD#16, 0x0001#16])
    = deliver [0x01#8, 0x10#8, 0x00#8, 0x20#8, 0x00#8, 0x03#8, 0x06#8, 0x12#8, 0x34#8, 0xAB#8, 0xCD#8, 0x00#8, 0x01#8, 0x25#8, 0x47#8] := by
  decide +kernel

/-! The host's table words. -/

theorem test_tableWord_requests :
    decodeTableWord 8 0x03 = some (.readHoldingRegisters 0x01#8 (.fields 0x0000#16 0x0000#16 [])) ∧
    decodeTableWord 8 0x06 = some (.writeSingleRegister 0x01#8 (.fields 0x0000#16 0x0000#16 [])) ∧
    decodeTableWord 8 0x10 = some (.writeMultipleRegisters 0x01#8 (.fields 0x0000#16 0x0000#16 0x00#8 [])) ∧
    decodeTableWord 8 0x08 = some (.illegalFunction 0x01#8 0x08#8 [0x00#8, 0x00#8, 0x00#8, 0x00#8]) := ⟨rfl, rfl, rfl, rfl⟩
/-- From reset the step runs the word's request: function 6 at address 0 with value 0 is answered by its echo. -/
theorem test_fetch_runsTheWord :
    (after (step (State.reset.withFetchWord 8 0x06)) State.reset).sent
      = [crcAppend [0x01#8, 0x06#8, 0x00#8, 0x00#8, 0x00#8, 0x00#8]] := by decide +kernel

/-! The events. -/

/-- A2: the last byte of the buffer. -/
theorem test_rxByte_last :
    let t := after (exec (.rxByte 0xAA#8) { State.reset with widx := 255 }) State.reset
    t.buf.read 255 = 0xAA#8 ∧ t.widx = 256 ∧ t.rxCount = 1 ∧ t.appended = true := by decide
/-- A3: overflow. -/
theorem test_rxByte_overflow :
    let t := after (exec (.rxByte 0x55#8) { State.reset with widx := 256 }) State.reset
    t.buf = [] ∧ t.widx = 256 ∧ t.rxCount = 1 ∧ t.appended = false ∧ t.status = .ok := by decide
/-- A4. -/
theorem test_onTimeout_empty : reply [] State.reset = ([], .timedOut) := by decide
/-- A6. -/
theorem test_onTimeout_runt : reply [0x01#8, 0x03#8, 0x40#8] State.reset = ([], .frameError) := by decide
/-- V-S2. -/
theorem test_onTimeout_otherSlave : reply otherSlave State.reset = ([], .addressMismatch) := by decide +kernel
/-- D5: the CRC bytes swapped. -/
theorem test_onTimeout_badCrc : reply badCrc State.reset = ([], .crcError) := by decide +kernel
/-- A9, R210. -/
theorem test_reset_restoresStore :
    let t := after (exec .reset { (stored 0 0x0032#16 48 0x0001#16) with widx := 5, buf := [(0, 0x01#8)] }) State.reset
    t.memRead 0 = 0x0000#16 ∧ t.memRead 48 = 0x0000#16 ∧ t.widx = 0 ∧ t.buf = [] ∧ t.sent = [] := by decide +kernel

/-! The requests. -/

/-- V-S1. -/
theorem test_rhr_values :
    reply rhr0x2 (stored 0 0x0032#16 1 0x002D#16) = ([[0x01#8, 0x03#8, 0x04#8, 0x00#8, 0x32#8, 0x00#8, 0x2D#8, 0x9B#8, 0xE1#8]], .ok) := by
  decide +kernel
/-- R6: across M1 and M2. -/
theorem test_rhr_crossesBlocks :
    reply [0x01#8, 0x03#8, 0x00#8, 0x0F#8, 0x00#8, 0x02#8, 0xF4#8, 0x08#8] State.reset
      = ([[0x01#8, 0x83#8, 0x02#8, 0xC0#8, 0xF1#8]], .ok) := by decide +kernel
/-- V-S3. -/
theorem test_wsr_writes :
    reply wsr0 State.reset = ([wsr0], .ok) ∧ (after (step (got wsr0)) State.reset).memRead 0 = 0x001E#16 := by decide +kernel
/-- W6: the echo is bytes 0 to 5, not the whole request. -/
theorem test_wsr_echoesSixBytes :
    reply [0x01#8, 0x06#8, 0x00#8, 0x05#8, 0x12#8, 0x34#8, 0x99#8, 0x7D#8, 0xC5#8] State.reset
      = ([[0x01#8, 0x06#8, 0x00#8, 0x05#8, 0x12#8, 0x34#8, 0x94#8, 0xBC#8]], .ok) := by decide +kernel
/-- M1. -/
theorem test_wmr_writes :
    reply wmr16x2 State.reset = ([[0x01#8, 0x10#8, 0x00#8, 0x10#8, 0x00#8, 0x02#8, 0x40#8, 0x0D#8]], .ok) ∧
    (after (step (got wmr16x2)) State.reset).memRead 16 = 0x000A#16 ∧
    (after (step (got wmr16x2)) State.reset).memRead 17 = 0x0102#16 := by decide +kernel
/-- M10: 2 x 0x8001 does not wrap. -/
theorem test_wmr_noWrap :
    reply [0x01#8, 0x10#8, 0x00#8, 0x10#8, 0x80#8, 0x01#8, 0x02#8, 0x00#8, 0x07#8, 0xE4#8, 0xDC#8] State.reset
      = ([[0x01#8, 0x90#8, 0x03#8, 0x0C#8, 0x01#8]], .ok) := by decide +kernel
/-- D7: bit 7 already set. -/
theorem test_unknown_bit7 : reply unknown83 State.reset = ([[0x01#8, 0x83#8, 0x01#8, 0x80#8, 0xF0#8]], .ok) := by decide +kernel
/-- D9. -/
theorem test_unknown_payload :
    reply [0x01#8, 0x2B#8, 0x0E#8, 0x01#8, 0x00#8, 0x70#8, 0x77#8] State.reset
      = ([[0x01#8, 0xAB#8, 0x01#8, 0x9E#8, 0xF0#8]], .ok) := by decide +kernel
/-- A7: a read without fields. -/
theorem test_shortRead : reply shortRead State.reset = ([[0x01#8, 0x83#8, 0x03#8, 0x01#8, 0x31#8]], .frameError) := by decide +kernel
/-- P5, fourth row: the first write before the read of cell 0, the second after the read of cell 1. -/
theorem test_portb_betweenCells :
    reply rhr0x2 { (stored 0 0x0001#16 1 0x0002#16) with
        portbSchedule := [[.write 0 0x00AA#16], [], [.write 1 0x00BB#16]] }
      = ([[0x01#8, 0x03#8, 0x04#8, 0x00#8, 0xAA#8, 0x00#8, 0x02#8, 0x5B#8, 0xD2#8]], .ok) := by decide +kernel
/-- P5, second row: both writes between the two reads. -/
theorem test_portb_betweenReads :
    reply rhr0x2 { (stored 0 0x0001#16 1 0x0002#16) with
        portbSchedule := [[], [.write 0 0x00AA#16, .write 1 0x00BB#16]] }
      = ([[0x01#8, 0x03#8, 0x04#8, 0x00#8, 0x01#8, 0x00#8, 0xBB#8, 0xEB#8, 0x80#8]], .ok) := by decide +kernel

/-! The replies, 95_test_vectors.md section 4.7. -/

theorem test_replyRhr :
    (after (exec (.replyRhr 0x01#8 [0x0032#16, 0x002D#16]) State.reset) State.reset).sent
      = [[0x01#8, 0x03#8, 0x04#8, 0x00#8, 0x32#8, 0x00#8, 0x2D#8, 0x9B#8, 0xE1#8]] := by decide +kernel
theorem test_replyWsr : (after (exec (.replyWsr 0x01#8 0x0000#16 0x001E#16) State.reset) State.reset).sent = [wsr0] := by
  decide +kernel
theorem test_replyWmr :
    (after (exec (.replyWmr 0x01#8 0x0010#16 0x0002#16) State.reset) State.reset).sent
      = [[0x01#8, 0x10#8, 0x00#8, 0x10#8, 0x00#8, 0x02#8, 0x40#8, 0x0D#8]] := by decide +kernel
theorem test_replyException :
    (after (exec (.replyException 0x01#8 0x83#8 .illegalFunction) State.reset) State.reset).sent
      = [[0x01#8, 0x83#8, 0x01#8, 0x80#8, 0xF0#8]] := by decide +kernel
/-- The counter saturates. -/
theorem test_txCount_saturates :
    (after (exec (.replyWsr 0x01#8 0x0000#16 0x001E#16) { State.reset with txCount := 0xFFFFFFFF }) State.reset).txCount
      = 0xFFFFFFFF := by decide +kernel

/-! Witnesses: for each claim with hypotheses, states and operands that meet all of them, at the boundaries of its clauses. -/

/-- Blocks that reach the last cell of the store. -/
def whole : State := { State.reset with cfg := { Config.reference with blocks := [⟨0, 64, "ALL"⟩] } }

theorem witness_ResetEventRestoresResetValues : (got rhr0x2).dstate = .idle := rfl

theorem witness_StepRunsNextInput :
    (got rhr0x2).cfg.wf = true ∧ (got rhr0x2).inbox = .event .onTimeout :: [] ∧
    { State.reset with inbox := [.portb (.write 63 0x0007#16)] }.inbox = .portb (.write 63 0x0007#16) :: [] ∧
    State.reset.inbox = [] := by decide

theorem witness_StepRunsDecodedRequest :
    (got rhr0x2).cfg.wf = true ∧ (got rhr0x2).dstate = .idle ∧ (got rhr0x2).inbox = .event .onTimeout :: [] ∧
    decode (got rhr0x2).cfg.slaveAddr (got rhr0x2).frame
      = .ok (.readHoldingRegisters 0x01#8 (.fields 0x0000#16 0x0002#16 [])) := ⟨rfl, rfl, rfl, rfl⟩

theorem witness_IllFormedConfigIsRefused_bufCap :
    { State.reset with cfg := { Config.reference with bufCap := 3 } }.cfg.bufCap < 4 := by decide
theorem witness_IllFormedConfigIsRefused_block :
    ∃ b ∈ { State.reset with cfg := { Config.reference with blocks := [⟨49, 16, "M1"⟩] } }.cfg.blocks,
      b.length < 1 ∨ 64 < b.start + b.length := by decide
theorem witness_IllFormedConfigIsRefused_overlap :
    let c := { Config.reference with blocks := [⟨0, 16, "M1"⟩, ⟨15, 16, "M2"⟩] }
    ∃ (i j : Nat) (p q : Block), i < j ∧ c.blocks[i]? = some p ∧ c.blocks[j]? = some q ∧
      q.start < p.start + p.length ∧ p.start < q.start + q.length :=
  ⟨0, 1, ⟨0, 16, "M1"⟩, ⟨15, 16, "M2"⟩, by decide⟩

theorem witness_OverlappingEventIsRefused : { State.reset with dstate := .responding }.dstate ≠ .idle := by decide

/-- Both sides of the bound: the last free byte, and a full buffer. -/
theorem witness_ReceiveByteStoresOrDrops :
    State.reset.dstate = .idle ∧ State.reset.buf.wf ∧
    { State.reset with widx := 255 }.widx < State.reset.cfg.bufCap ∧
    ¬ { State.reset with widx := 256 }.widx < State.reset.cfg.bufCap := by decide

theorem witness_FrameIsFirstBytesReceived :
    (got rhr0x2).dstate = .idle ∧ (Event.onTimeout = .onTimeout ∨ Event.onTimeout = .reset) ∧
    (Event.reset = .onTimeout ∨ Event.reset = .reset) := by decide

/-- No byte, and three. -/
theorem witness_RuntIsDiscarded :
    (got []).dstate = .idle ∧ (got []).widx = 0 ∧
    (got [0x01#8, 0x03#8, 0x40#8]).dstate = .idle ∧ (got [0x01#8, 0x03#8, 0x40#8]).widx = 3 := by decide

theorem witness_TimeoutAlwaysResetsAssembler : (got rhr0x2).dstate = .idle := rfl

theorem witness_OnlyTimeoutAndResetAbandonFrame_timeout :
    ∃ t, step (got rhr0x2) = .next t ∧ t.widx < (got rhr0x2).widx := ⟨_, rfl, by decide +kernel⟩
theorem witness_OnlyTimeoutAndResetAbandonFrame_reset :
    ∃ t, step { (got rhr0x2) with inbox := [.event .reset] } = .next t ∧ t.widx < (got rhr0x2).widx :=
  ⟨_, rfl, by decide⟩

/-- The shortest frame that is checked: accepted, and not. -/
theorem witness_CrcCheckComparesTrailer :
    4 ≤ shortRead.length ∧ crcOk shortRead = true ∧ crcOk [0x01#8, 0x03#8, 0x40#8, 0x20#8] = false := by decide +kernel

/-- An event and an instruction that transmit. -/
theorem witness_CrcAcceptsWhatItClosed :
    (∃ t, exec .onTimeout (got wsr0) = .next t ∧ t.sent = (got wsr0).sent ++ [wsr0]) ∧
    ∃ t, exec (.replyWsr 0x01#8 0x0000#16 0x001E#16) State.reset = .next t ∧ t.sent = State.reset.sent ++ [wsr0] :=
  ⟨⟨_, rfl, by decide +kernel⟩, ⟨_, rfl, by decide +kernel⟩⟩

/-- A frame that is only its CRC: accepted, and not. -/
theorem witness_CrcResidueIsZero :
    2 ≤ [0xFF#8, 0xFF#8].length ∧ crcOk [0xFF#8, 0xFF#8] = true ∧ crcOk [0xFF#8, 0xFE#8] = false := by decide +kernel

/-- One accepted frame for each of the four selections. -/
theorem witness_FunctionByteSelectsRequest :
    accepted Config.reference rhr0x2 ∧ accepted Config.reference wsr0 ∧ accepted Config.reference wmr16x2 ∧
    accepted Config.reference unknown83 := by unfold accepted; decide +kernel

/-- Each function at its shortest length with fields: 8, 8, and 9 with no data. -/
theorem witness_RequestFieldsStandAtTheirOffsets :
    (accepted Config.reference rhr0x2 ∧ rhr0x2.getD 1 0 = 0x03#8 ∧ 8 = rhr0x2.length) ∧
    (accepted Config.reference wsr0 ∧ wsr0.getD 1 0 = 0x06#8 ∧ 8 = wsr0.length) ∧
    (accepted Config.reference wmr16x2 ∧ wmr16x2.getD 1 0 = 0x10#8 ∧ wmr16x2.length = 9 + (wmr16x2.getD 6 0).toNat) ∧
    (let f := crcAppend [0x01#8, 0x10#8, 0x00#8, 0x10#8, 0x00#8, 0x00#8, 0x00#8]
     accepted Config.reference f ∧ f.getD 1 0 = 0x10#8 ∧ f.length = 9 + (f.getD 6 0).toNat) := by
  unfold accepted; decide +kernel

/-- A request of each function with fields, one of each without, and the longest read that fits. -/
theorem witness_EncodedRequestDecodesToItself :
    (Request.readHoldingRegisters 0x01#8 (.fields 0xFFFF#16 0xFFFF#16 [])).wf Config.reference = true ∧
    (Request.readHoldingRegisters 0x01#8 (.fields 0x0000#16 0x0001#16 (List.replicate 248 0x00#8))).wf Config.reference = true ∧
    (Request.writeSingleRegister 0x01#8 (.short [0x00#8, 0x05#8, 0x12#8])).wf Config.reference = true ∧
    (Request.writeMultipleRegisters 0x01#8 (.fields 0x0010#16 0x0000#16 0x00#8 [])).wf Config.reference = true ∧
    (Request.writeMultipleRegisters 0x01#8 (.badLength [0x00#8, 0x10#8, 0x00#8, 0x00#8, 0x01#8])).wf Config.reference = true ∧
    (Request.illegalFunction 0x01#8 0x83#8 []).wf Config.reference = true := by decide +kernel

theorem witness_DecodedFrameEncodesToItself :
    decode 0x01#8 wmr16x2
      = .ok (.writeMultipleRegisters 0x01#8 (.fields 0x0010#16 0x0002#16 0x04#8 [0x00#8, 0x0A#8, 0x01#8, 0x02#8])) ∧
    wmr16x2.length ≤ Config.reference.bufCap := ⟨rfl, by decide⟩

/-- The read reply at its bounds, 1 and 64 values. -/
theorem witness_EncodedReplyReadsBackAsItself :
    (Instr.replyRhr 0x01#8 [0xFFFF#16]).wf Config.reference = true ∧
    (Instr.replyRhr 0x01#8 (List.replicate 64 0xFFFF#16)).wf Config.reference = true ∧
    (Instr.replyWsr 0x01#8 0xFFFF#16 0x0000#16).wf Config.reference = true ∧
    (Instr.replyWmr 0x01#8 0x0000#16 0x0040#16).wf Config.reference = true ∧
    (Instr.replyException 0x01#8 0x83#8 .illegalDataValue).wf Config.reference = true := by decide +kernel

/-- The last cell, the first address outside, two cells, and the last cell of a validated range. -/
theorem witness_StoreReadsWhatWasWritten :
    63 < 64 ∧ 64 ≤ 64 ∧ (62 : Nat) ≠ 63 ∧ whole.validRange 0 64 = true ∧ 63 < 64 := by decide

/-- The whole of a block, valid; one cell more, not. -/
theorem witness_ValidRangeLiesInOneBlock :
    Config.reference.wf = true ∧ validRange Config.reference.blocks 0 16 = true ∧
    validRange Config.reference.blocks 0 17 = false ∧
    (∃ b ∈ Config.reference.blocks, b.start ≤ 32 ∧ 32 + 16 ≤ b.start + b.length) := by decide

/-- Quantity 0, a range across two blocks, a cell of no block, an address that must not wrap. -/
theorem witness_ValidRangeLiesInOneBlock_invalid :
    State.reset.validRange (0x0000#16).toNat (0x0000#16).toNat = false ∧
    State.reset.validRange (0x000F#16).toNat (0x0002#16).toNat = false ∧
    State.reset.validRange (0x0030#16).toNat 1 = false ∧
    State.reset.validRange (0xFFFF#16).toNat (0x0002#16).toNat = false ∧
    (0x04#8).toNat = 2 * (0x0002#16).toNat ∧ (0x00#8).toNat = 2 * (0x0000#16).toNat := by decide

/-- The last cell of a block, valid; the first of no block, and the first outside the store, not. -/
theorem witness_SingleRegisterIsValidInABlock :
    State.reset.cfg.wf = true ∧
    (∃ b ∈ State.reset.cfg.blocks, b.start ≤ (0x002F#16).toNat ∧ (0x002F#16).toNat < b.start + b.length) ∧
    (∀ b ∈ State.reset.cfg.blocks, ¬ (b.start ≤ (0x0030#16).toNat ∧ (0x0030#16).toNat < b.start + b.length)) ∧
    whole.cfg.wf = true ∧
    (∃ b ∈ whole.cfg.blocks, b.start ≤ (0x003F#16).toNat ∧ (0x003F#16).toNat < b.start + b.length) ∧
    (∀ b ∈ whole.cfg.blocks, ¬ (b.start ≤ (0x0040#16).toNat ∧ (0x0040#16).toNat < b.start + b.length)) := by decide

/-- A read, a write of the last cell, a write outside the store. -/
theorem witness_PortbAccessesCellsOnly :
    State.reset.cfg.wf = true ∧
    { State.reset with inbox := [.portb (.read 63)] }.inbox = .portb (.read 63) :: [] ∧
    { State.reset with inbox := [.portb (.write 63 0x0007#16)] }.inbox = .portb (.write 63 0x0007#16) :: [] ∧
    { State.reset with inbox := [.portb (.write 64 0x0007#16)] }.inbox = .portb (.write 64 0x0007#16) :: [] := by decide

theorem witness_PortbActsInsideRequestsByGranularity :
    { State.reset with cfg := { Config.reference with granularity := .betweenEvents } }.cfg.granularity = .betweenEvents ∧
    State.reset.cfg.granularity = .betweenCells ∧ State.reset.portbSchedule = [] ∧
    { State.reset with portbSchedule := [[.read 0], []] }.portbSchedule = [.read 0] :: [[]] := by decide

/-- A whole block, with PORTB at work. -/
theorem witness_ReadRepliesWithCellsAtTheirReads :
    { State.reset with portbSchedule := [[.write 0 0x00AA#16]] }.validRange (0x0000#16).toNat (0x0010#16).toNat = true := by
  decide

theorem witness_QuietReadRepliesWithCurrentValues :
    State.reset.portbQuiet ∧ State.reset.validRange (0x002F#16).toNat (0x0001#16).toNat = true :=
  ⟨.inr rfl, by decide⟩

theorem witness_WriteSingleWritesBetweenPoints :
    { State.reset with portbSchedule := [[.write 5 0x00AA#16]] }.validRange (0x0005#16).toNat 1 = true := by decide

theorem witness_QuietWriteSingleChangesOneCell :
    whole.portbQuiet ∧ whole.validRange (0x003F#16).toNat 1 = true := ⟨.inr rfl, by decide⟩

theorem witness_WriteMultipleWritesBetweenPoints :
    [0x00#8, 0x0A#8, 0x01#8, 0x02#8].length = (0x04#8).toNat ∧ (0x04#8).toNat = 2 * (0x0002#16).toNat ∧
    { State.reset with portbSchedule := [[], [.write 16 0x00AA#16]] }.validRange (0x0010#16).toNat (0x0002#16).toNat = true := by
  decide

/-- The largest run, the whole store. -/
theorem witness_QuietWriteMultipleChangesItsRun :
    whole.portbQuiet ∧ (List.replicate 128 0x07#8).length = (0x80#8).toNat ∧ (0x80#8).toNat = 2 * (0x0040#16).toNat ∧
    whole.validRange (0x0000#16).toNat (0x0040#16).toNat = true := ⟨.inr rfl, by decide +kernel, by decide, by decide⟩

theorem witness_ByteCountMismatchRaisesIllegalDataValue : (0x02#8).toNat ≠ 2 * (0x8001#16).toNat := by decide

/-- Each of the three, with the empty payload. -/
theorem witness_BadLengthRaisesIllegalDataValue :
    let l := [(Instr.readHoldingRegisters 0x01#8 (.short []), 0x83#8), (Instr.writeSingleRegister 0x01#8 (.short []), 0x86#8),
      (Instr.writeMultipleRegisters 0x01#8 (.badLength []), 0x90#8)]
    (Instr.readHoldingRegisters 0x01#8 (.short []), 0x83#8) ∈ l ∧ (Instr.writeSingleRegister 0x01#8 (.short []), 0x86#8) ∈ l ∧
    (Instr.writeMultipleRegisters 0x01#8 (.badLength []), 0x90#8) ∈ l := by decide

/-- A write of two values across M1 and M2 (M2), with PORTB scheduled. -/
theorem witness_ExceptionReplyLeavesStoreUnmodified :
    let s := { State.reset with portbSchedule := [[.write 15 0x00AA#16]] }
    let req := Request.writeMultipleRegisters 0x01#8 (.fields 0x000F#16 0x0002#16 0x04#8 [0x00#8, 0x01#8, 0x00#8, 0x02#8])
    ∃ t reply, exec req.toInstr s = .next t ∧ t.sent = s.sent ++ [reply] ∧ (reply.getD 1 0).getLsbD 7 = true :=
  ⟨_, [0x01#8, 0x90#8, 0x02#8, 0xCD#8, 0xC1#8], rfl, by decide +kernel, by decide⟩

/-- Both write functions. -/
theorem witness_WriteReplyEchoesRequestBody :
    (∃ t reply, decode (got wsr0).cfg.slaveAddr (got wsr0).frame = .ok (.writeSingleRegister 0x01#8 (.fields 0 0x001E#16 [])) ∧
      exec (Request.writeSingleRegister 0x01#8 (.fields 0 0x001E#16 [])).toInstr (got wsr0) = .next t ∧
      t.sent = (got wsr0).sent ++ [reply] ∧ reply.getD 1 0 = 0x06#8) ∧
    (∃ t reply, decode (got wmr16x2).cfg.slaveAddr (got wmr16x2).frame
        = .ok (.writeMultipleRegisters 0x01#8 (.fields 0x0010#16 0x0002#16 0x04#8 [0x00#8, 0x0A#8, 0x01#8, 0x02#8])) ∧
      exec (Request.writeMultipleRegisters 0x01#8
        (.fields 0x0010#16 0x0002#16 0x04#8 [0x00#8, 0x0A#8, 0x01#8, 0x02#8])).toInstr (got wmr16x2) = .next t ∧
      t.sent = (got wmr16x2).sent ++ [reply] ∧ reply.getD 1 0 = 0x10#8) :=
  ⟨⟨_, wsr0, rfl, rfl, by decide +kernel, by decide⟩,
   ⟨_, [0x01#8, 0x10#8, 0x00#8, 0x10#8, 0x00#8, 0x02#8, 0x40#8, 0x0D#8], rfl, rfl, by decide +kernel, by decide⟩⟩

/-- The shortest reply. -/
theorem witness_ReplyLengthIsBounded :
    ∃ t reply, State.reset.cfg.wf = true ∧ exec (Request.illegalFunction 0x01#8 0x83#8 []).toInstr State.reset = .next t ∧
      t.sent = State.reset.sent ++ [reply] ∧ reply.length = 5 ∧ State.reset.cfg.blocks = Config.reference.blocks :=
  ⟨_, [0x01#8, 0x83#8, 0x01#8, 0x80#8, 0xF0#8], rfl, rfl, by decide +kernel, by decide, rfl⟩
/-- The longest: the whole store in one block, and one whole block of the reference table. -/
theorem witness_ReplyLengthIsBounded_longest :
    (let t := after (exec (Request.readHoldingRegisters 0x01#8 (.fields 0x0000#16 0x0040#16 [])).toInstr whole) whole
     whole.cfg.wf = true ∧ t.sent.map List.length = [133]) ∧
    (let t := after (exec (Request.readHoldingRegisters 0x01#8 (.fields 0x0000#16 0x0010#16 [])).toInstr State.reset) State.reset
     t.sent.map List.length = [37]) := by decide +kernel

theorem witness_ReplyIsAuthenticAndAddressed :
    ∃ t reply, decode (got wsr0).cfg.slaveAddr (got wsr0).frame = .ok (.writeSingleRegister 0x01#8 (.fields 0 0x001E#16 [])) ∧
      exec (Request.writeSingleRegister 0x01#8 (.fields 0 0x001E#16 [])).toInstr (got wsr0) = .next t ∧
      t.sent = (got wsr0).sent ++ [reply] := ⟨_, wsr0, rfl, rfl, by decide +kernel⟩

theorem witness_OtherAddressIsDiscarded :
    (got otherSlave).dstate = .idle ∧ 4 ≤ (got otherSlave).widx ∧
    (got otherSlave).buf.read 0 ≠ (got otherSlave).cfg.slaveAddr := by decide

theorem witness_CorruptFrameIsDiscarded :
    let s := got badCrc
    s.dstate = .idle ∧ 4 ≤ s.widx ∧ s.buf.read 0 = s.cfg.slaveAddr ∧
    (crc16 ((List.range (s.widx - 2)).map s.buf.read)).toNat ≠
      (s.buf.read (s.widx - 2)).toNat + 256 * (s.buf.read (s.widx - 1)).toNat := by decide +kernel

/-- One frame for each outcome of the list: runt, other slave, bad CRC, unknown function, bad length, byteCount, range, and
a normal reply. -/
theorem witness_FirstFailedCheckDecidesReply :
    (reply [0x01#8, 0x03#8, 0x40#8] State.reset).1 = [] ∧ (reply otherSlave State.reset).1 = [] ∧
    (reply badCrc State.reset).1 = [] ∧
    (reply unknown83 State.reset).1.map (·.getD 2 0) = [0x01#8] ∧
    (reply shortRead State.reset).1.map (·.getD 2 0) = [0x03#8] ∧
    (reply (crcAppend [0x01#8, 0x10#8, 0x00#8, 0x10#8, 0x00#8, 0x01#8, 0x00#8]) State.reset).1.map (·.getD 2 0) = [0x03#8] ∧
    (reply (crcAppend [0x01#8, 0x10#8, 0x00#8, 0x10#8, 0x00#8, 0x00#8, 0x00#8]) State.reset).1.map (·.getD 2 0) = [0x02#8] ∧
    (reply wsr0 State.reset).1 = [wsr0] := by decide +kernel

/-- A frame that writes one cell, one that writes two, and one that writes none. -/
theorem witness_TimeoutWritesExactlyTheRequestedCells :
    (got wsr0).dstate = .idle ∧ (got wsr0).portbQuiet ∧
    (accepted (got wsr0).cfg (got wsr0).frame ∧ (got wsr0).buf.read 1 = 0x06#8 ∧ 8 ≤ (got wsr0).widx ∧
      ∃ B ∈ (got wsr0).cfg.blocks, B.start ≤ 0 ∧ 0 + 1 ≤ B.start + B.length) ∧
    (accepted (got wmr16x2).cfg (got wmr16x2).frame ∧ (got wmr16x2).buf.read 1 = 0x10#8 ∧
      (got wmr16x2).widx = 9 + ((got wmr16x2).buf.read 6).toNat ∧ ((got wmr16x2).buf.read 6).toNat = 2 * 2 ∧
      ∃ B ∈ (got wmr16x2).cfg.blocks, B.start ≤ 16 ∧ 16 + 2 ≤ B.start + B.length) ∧
    ¬ accepted (got badCrc).cfg (got badCrc).frame := by
  refine ⟨rfl, .inr rfl, ?_, ?_, ?_⟩ <;> unfold accepted <;> decide +kernel

theorem witness_DeliveredRequestIsServed :
    let req := Request.writeSingleRegister 0x01#8 (.fields 0x0000#16 0x001E#16 [])
    State.reset.dstate = .idle ∧ State.reset.buf.wf ∧ State.reset.widx = 0 ∧ req.wf State.reset.cfg = true ∧
    State.reset.rxCount + (encode req.toInstr).length < 2 ^ State.reset.cfg.ctrWidth := by decide +kernel

/-- Two states with the same frame and store, and other bytes above the write index, counters, status and history. -/
theorem witness_OutcomeDependsOnFrameAndStoreOnly :
    let s := got wsr0
    let s' := { s with
      buf := s.buf.write 9 0xAA#8, status := .crcError, rxCount := 7, txCount := 9, sent := [wsr0] }
    s.dstate = .idle ∧ s'.dstate = .idle ∧ s.cfg = s'.cfg ∧ s.frame = s'.frame ∧ s.x = s'.x ∧
      s.portbSchedule = s'.portbSchedule ∧ s.buf ≠ s'.buf := by decide +kernel

/-- A next state, and a refusal. -/
theorem witness_StatusAndCountersAreNeverRead :
    ran (step (got wsr0)) = true ∧
    step { (got wsr0) with dstate := .decoding } = .refused .eventOverlap := ⟨by decide +kernel, rfl⟩

theorem witness_RepeatedRequestGivesTheSameResult :
    let req := Request.writeSingleRegister 0x01#8 (.fields 0x0000#16 0x001E#16 [])
    State.reset.portbQuiet ∧ req.toInstr.wf State.reset.cfg = true ∧
    ∃ t u, exec req.toInstr State.reset = .next t ∧ exec req.toInstr t = .next u :=
  ⟨.inr rfl, by decide, _, _, rfl, rfl⟩

theorem witness_ReadReturnsWhatWasWritten :
    State.reset.portbQuiet ∧ [0x00#8, 0x0A#8, 0x01#8, 0x02#8].length = (0x04#8).toNat ∧
    (0x04#8).toNat = 2 * (0x0002#16).toNat ∧ State.reset.validRange (0x0010#16).toNat (0x0002#16).toNat = true ∧
    ∃ t, exec (.writeMultipleRegisters 0x01#8
      (.fields 0x0010#16 0x0002#16 0x04#8 [0x00#8, 0x0A#8, 0x01#8, 0x02#8])) State.reset = .next t :=
  ⟨.inr rfl, by decide, by decide, by decide, _, rfl⟩

/-- A state with a frame in the buffer meets the invariant and takes a step. -/
theorem witness_StepKeepsInvariant : (got wsr0).Inv ∧ ran (step (got wsr0)) = true :=
  ⟨⟨by decide, rfl, by decide, by decide, by decide, by decide, by decide⟩, by decide +kernel⟩

theorem witness_EveryStepGoesOn : (got wmr16x2).Inv :=
  ⟨by decide, rfl, by decide, by decide, by decide, by decide, by decide⟩

theorem witness_ConfigurationNeverChanges :
    (∃ t, step (got wsr0) = .next t) ∧
    ∃ t, exec (.replyWsr 0x01#8 0x0000#16 0x001E#16) State.reset = .next t := ⟨⟨_, rfl⟩, ⟨_, rfl⟩⟩

/-- A step that transmits, and one that does not. -/
theorem witness_EveryReplyAnswersAnAcceptedFrame :
    (∃ t, step (got wsr0) = .next t ∧ t.sent ≠ (got wsr0).sent) ∧
    ∃ t, step (got badCrc) = .next t ∧ t.sent = (got badCrc).sent :=
  ⟨⟨_, rfl, by decide +kernel⟩, ⟨_, rfl, by decide +kernel⟩⟩

/-- A step that transmits, below and at the top of the counter, and one that does not. -/
theorem witness_TxCountCountsForwardedFrames :
    (∃ t, step (got wsr0) = .next t ∧ (∀ rest, (got wsr0).inbox ≠ .event .reset :: rest) ∧ t.sent = (got wsr0).sent ++ [wsr0]) ∧
    (∃ t, step { (got wsr0) with txCount := 2 ^ 32 - 1 } = .next t ∧ t.sent = (got wsr0).sent ++ [wsr0]) ∧
    ∃ t, step (got badCrc) = .next t ∧ t.sent = (got badCrc).sent :=
  ⟨⟨_, rfl, by simp [got, heard], by decide +kernel⟩, ⟨_, rfl, by decide +kernel⟩, ⟨_, rfl, by decide +kernel⟩⟩

/-- A write of a valid cell, and cell 48, which is in no block. -/
theorem witness_CellsOutsideBlocksAreNeverWritten :
    (got wsr0).portbQuiet ∧ (got wsr0).inbox = .event .onTimeout :: [] ∧ Event.onTimeout ≠ .reset ∧
    (∃ t, step (got wsr0) = .next t) ∧
    ∀ b ∈ (got wsr0).cfg.blocks, ¬ (b.start ≤ 48 ∧ 48 < b.start + b.length) :=
  ⟨.inr rfl, rfl, by decide, ⟨_, rfl⟩, by decide⟩

end Sys2Proof.Tests
end

section
/-! PROOFS. The family 30_encoding.md: the fields of a request at their offsets (R61), and the write replies as echoes of the
received frame (R68, R69). -/

namespace Sys2Proof

/-- An accepted frame decodes to what the function decode reads from it (R115). -/
theorem decode_of_accepted {c : Config} {f : Frame} (h : Machine.accepted c f) :
    decode c.slaveAddr f = .ok (parseRequest (f.getD 0 0) (f.getD 1 0) (payloadOf f)) := by
  obtain ⟨hlen, haddr, hcrc⟩ := h
  exact (decode_ok_iff _ _ _).2 ⟨hlen, haddr, (crcOk_iff f).2 hcrc, rfl⟩

/-- Byte `k` of a run of `n` bytes that starts at byte `i` is byte `i + k`. -/
theorem getD_take_drop (f : List Byte) {i k n : Nat} (h : k < n) :
    ((f.drop i).take n).getD k 0 = f.getD (i + k) 0 := by
  simp [List.getD_eq_getElem?_getD, h]

/-- Value `i` of a request 0x10 stands at bytes `7 + 2i` and `8 + 2i` of its frame (R61, R66). -/
theorem dataValue_of_frame (f : Frame) (i : Nat) (h : 2 * i + 1 < f.length - 9) :
    (wordsOf ((f.drop 7).take (f.length - 9))).getD i 0 = be16 (f.getD (7 + 2 * i) 0) (f.getD (8 + 2 * i) 0) := by
  have hdata : 2 * i + 1 < ((f.drop 7).take (f.length - 9)).length := by simp; omega
  rw [words_getD _ i hdata, getD_take_drop f (by omega), getD_take_drop f h, show 7 + (2 * i + 1) = 8 + 2 * i by omega]

/-- The function decode loses no byte: its answer stands for the address, the function code and the payload (R60). -/
theorem body_parseRequest (addr fn : Byte) (p : List Byte) :
    body (parseRequest addr fn p).toInstr = addr :: fn :: p := by
  rcases parseRequest_cases addr fn p with ⟨rfl, h⟩ | ⟨rfl, h⟩ | ⟨rfl, h⟩ | ⟨-, -, -, h⟩ <;>
    rw [h] <;> simp [Request.toInstr, body]

/-- A frame that decodes holds, before its CRC, the bytes of its request. -/
theorem body_of_decode {a : Byte} {f : Frame} {req : Request} (h : decode a f = .ok req) :
    body req.toInstr = f.take (f.length - 2) := by
  obtain ⟨hlen, -, -, rfl⟩ := (decode_ok_iff _ _ _).1 h
  rw [body_parseRequest, frame_split f hlen]

/-- The first bytes of a frame that decodes are those of its request. -/
theorem take_of_decode {a : Byte} {f : Frame} {req : Request} (h : decode a f = .ok req) {n : Nat}
    (hn : n ≤ (body req.toInstr).length) : f.take n = (body req.toInstr).take n := by
  rw [body_of_decode h, List.length_take] at hn
  rw [body_of_decode h, List.take_take, Nat.min_eq_left (by omega)]

end Sys2Proof

namespace Sys2Proof.Machine

/-- Settles O17: an accepted frame decodes to what the parsers read from its payload, and byte `k` of the payload is byte
`k + 2` of the frame. -/
theorem requestFieldsStandAtTheirOffsets : Obligations.RequestFieldsStandAtTheirOffsets := by
  unfold Obligations.RequestFieldsStandAtTheirOffsets
  intro c f hacc
  rw [decode_of_accepted hacc]
  refine ⟨fun hfn hlen => ?_, fun hfn hlen => ?_⟩
  · refine ⟨_, _, _, ?_, be16_toNat _ _, be16_toNat _ _, rfl⟩
    rcases hfn with hfn | hfn <;> rw [hfn] <;> simp [parseRequest, pair_of_frame f hlen]
  · refine ⟨_, _, (f.drop 7).take (f.length - 9), ?_, be16_toNat _ _, be16_toNat _ _, fun i hi => ?_⟩
    · rw [hfn, ← multi_of_frame f hlen]
      rfl
    · rw [dataValue_of_frame f i (by omega), be16_toNat]

/-- Settles O39: by the list of all that a request can do, a reply with function byte 0x06 or 0x10 carries the fields of a
write request back, and those are the bytes the frame holds there. -/
theorem writeReplyEchoesRequestBody : Obligations.WriteReplyEchoesRequestBody := by
  unfold Obligations.WriteReplyEchoesRequestBody
  intro s req t reply hdec hexec hsent hfn
  obtain rfl : s.serve req = t := by simpa using hexec
  obtain ⟨addr, fn, p, hserve, hcase⟩ := serve_cases s req
  obtain rfl : crcAppend (addr :: fn :: p) = reply := by simpa [hserve] using hsent
  rw [crcAppend_getD _ 1 (by simp)] at hfn
  replace hfn : fn = 0x06#8 ∨ fn = 0x10#8 := hfn
  rcases hcase with ⟨hbit, -⟩ | ⟨rfl, -⟩ | ⟨rfl, a, v, ig, rfl, rfl, -⟩ | ⟨rfl, a, q, bc, d, rfl, rfl, -⟩
  · rcases hfn with rfl | rfl <;> exact absurd hbit (by decide)
  · exact absurd hfn (by decide)
  · rw [take_of_decode hdec (by simp [Request.toInstr, body, PairOperands.size])]
    exact ⟨rfl, by simp⟩
  · rw [take_of_decode hdec (by simp [Request.toInstr, body, MultiOperands.size]; omega)]
    exact ⟨rfl, by simp⟩

end Sys2Proof.Machine
end

section
/-! PROOFS. The family 40_frame_assembler.md: which bytes stand in the buffer (R90, R91, R98), and what moves the write index
back (R96). -/

namespace Sys2Proof.Machine

/-! What RX_BYTE keeps, and what it does to the frame. -/

@[simp] theorem receive_cfg (s : State) (b : Byte) : (s.receive b).cfg = s.cfg := by
  rcases receive_cases s b with ⟨-, h⟩ | ⟨-, h⟩ <;> rw [h]

@[simp] theorem receive_dstate (s : State) (b : Byte) : (s.receive b).dstate = s.dstate := by
  rcases receive_cases s b with ⟨-, h⟩ | ⟨-, h⟩ <;> rw [h]

@[simp] theorem receive_sent (s : State) (b : Byte) : (s.receive b).sent = s.sent := by
  rcases receive_cases s b with ⟨-, h⟩ | ⟨-, h⟩ <;> rw [h]

/-- RX_BYTE never moves the write index back, also when it drops the byte (R90, R91). -/
theorem widx_le_receive_widx (s : State) (b : Byte) : s.widx ≤ (s.receive b).widx := by
  rcases receive_cases s b with ⟨-, h⟩ | ⟨-, h⟩ <;> simp [h]

theorem receive_buf_wf {s : State} (hw : s.buf.wf) (b : Byte) : (s.receive b).buf.wf := by
  rcases receive_cases s b with ⟨-, h⟩ | ⟨-, h⟩ <;> rw [h]
  · exact Memory.write_wf s.buf s.widx b hw
  · exact hw

/-- Writing a byte at the write index and moving the index on appends the byte to the frame. -/
theorem map_read_write_widx {m : Memory} (hw : m.wf) (n : Nat) (b : Byte) :
    (List.range (n + 1)).map (m.write n b).read = (List.range n).map m.read ++ [b] := by
  have hkept : ∀ i ∈ List.range n, (m.write n b).read i = m.read i := fun i hi => by
    rw [Memory.read_write m n i b hw, if_neg (List.mem_range.1 hi).ne]
  rw [List.range_succ, List.map_append, List.map_congr_left hkept]
  simp [Memory.read_write m n n b hw]

/-- RX_BYTE appends its byte to the frame while there is room, and else leaves the frame alone (R90, R91). -/
theorem receive_frame {s : State} (hw : s.buf.wf) (b : Byte) :
    (s.receive b).frame = if s.widx < s.cfg.bufCap then s.frame ++ [b] else s.frame := by
  rcases receive_cases s b with ⟨hroom, h⟩ | ⟨hfull, h⟩ <;> rw [h]
  · rw [if_pos hroom]
    exact map_read_write_widx hw s.widx b
  · rw [if_neg (by omega)]
    rfl

/-! Any number of RX_BYTE, one after another. -/

/-- An idle engine takes every byte. -/
theorem runEvents_rxBytes (bytes : List Byte) : ∀ {s : State}, s.dstate = .idle →
    runEvents (bytes.map Event.rxByte) s = .next (bytes.foldl State.receive s) := by
  induction bytes with
  | nil => intro s _; rfl
  | cons b bytes ih =>
    intro s hd
    rw [List.map_cons, runEvents, exec_event, if_pos hd]
    exact ih (by simpa [State.take] using hd)

theorem foldl_receive_sent (bytes : List Byte) : ∀ s : State, (bytes.foldl State.receive s).sent = s.sent := by
  induction bytes with
  | nil => intro s; rfl
  | cons b bytes ih => intro s; rw [List.foldl_cons, ih, receive_sent]

/-- The bytes are appended to the frame, in order, as far as there is room. -/
theorem foldl_receive_frame (bytes : List Byte) : ∀ {s : State}, s.buf.wf →
    (bytes.foldl State.receive s).frame = s.frame ++ bytes.take (s.cfg.bufCap - s.widx) := by
  induction bytes with
  | nil => intro s _; simp
  | cons b bytes ih =>
    intro s hw
    have hwidx : (s.receive b).widx = (s.receive b).frame.length := (frame_length _).symm
    rw [List.foldl_cons, ih (receive_buf_wf hw b), hwidx, receive_frame hw b, receive_cfg]
    split
    · next hroom =>
      obtain ⟨k, hk⟩ : ∃ k, s.cfg.bufCap - s.widx = k + 1 := ⟨s.cfg.bufCap - s.widx - 1, by omega⟩
      have hk' : s.cfg.bufCap - (s.widx + 1) = k := by omega
      simp [hk, hk']
    · next hfull => simp [show s.cfg.bufCap - s.widx = 0 by omega]

/-! What the other two events leave. -/

@[simp] theorem timeout_cfg (s : State) : s.timeout.cfg = s.cfg := by
  rcases timeout_cases s with ⟨r, -, h⟩ | ⟨req, -, h⟩ <;> rw [h, returnToIdle_cfg]
  exact (serve_fields _ req).1

/-- After ON_TIMEOUT and after RESET the engine is idle with an empty buffer, under the same configuration (R95, R210). -/
theorem take_abandons_frame (s : State) {e : Event} (he : e = .onTimeout ∨ e = .reset) :
    (s.take e).dstate = .idle ∧ (s.take e).buf = [] ∧ (s.take e).widx = 0 ∧ (s.take e).cfg = s.cfg := by
  rcases he with rfl | rfl
  · exact ⟨rfl, rfl, rfl, timeout_cfg s⟩
  · exact ⟨rfl, rfl, rfl, rfl⟩

/-- Settles O8: the first event leaves an empty buffer, to which the bytes are appended as far as there is room. -/
theorem frameIsFirstBytesReceived : Obligations.FrameIsFirstBytesReceived := by
  unfold Obligations.FrameIsFirstBytesReceived
  intro s e bytes hd he
  obtain ⟨hidle, hbuf, hwidx, hcfg⟩ := take_abandons_frame s he
  have hexec : exec e.toInstr s = .next (s.take e) := by rw [exec_event, if_pos hd]
  refine ⟨s.take e, bytes.foldl State.receive (s.take e), hexec, ?_, ?_, foldl_receive_sent bytes _⟩
  · rw [runEvents, hexec]
    exact runEvents_rxBytes bytes hidle
  · have hwf : (s.take e).buf.wf := by simp [hbuf, Memory.wf]
    have hempty : (s.take e).frame = [] := List.length_eq_zero_iff.1 (by rw [frame_length, hwidx])
    rw [foldl_receive_frame bytes hwf, hempty, hwidx, hcfg, List.nil_append, Nat.sub_zero]

/-- Settles O11: of all that a step can do, resting, a PORTB access and RX_BYTE do not move the write index back. -/
theorem onlyTimeoutAndResetAbandonFrame : Obligations.OnlyTimeoutAndResetAbandonFrame := by
  unfold Obligations.OnlyTimeoutAndResetAbandonFrame
  intro s t hstep hlt
  obtain ⟨-, ⟨-, rfl⟩ | ⟨op, rest, -, rfl⟩ | ⟨e, rest, hinbox, -, rfl⟩⟩ := step_next hstep
  · simp at hlt
  · simp at hlt
  · cases e with
    | rxByte b => exact absurd (widx_le_receive_widx (s.begin rest) b) (Nat.not_le.2 hlt)
    | onTimeout => exact ⟨rest, .inl hinbox⟩
    | reset => exact ⟨rest, .inr hinbox⟩

end Sys2Proof.Machine
end

section
/-! PROOFS. The family 41_crc_engine.md: the check as a comparison of two values (R102), and every transmitted frame passes
it (R104). -/

namespace Sys2Proof.Machine

/-- All that an instruction with a next state can have done: an event taken in Idle, a request served, or a reply of the bytes
before its CRC. -/
theorem exec_next {i : Instr} {s t : State} (h : exec i s = .next t) :
    (∃ e : Event, i = e.toInstr ∧ s.dstate = .idle ∧ t = s.take e) ∨
    (∃ req : Request, i = req.toInstr ∧ t = s.serve req) ∨
    t = s.forward (body i) := by
  have event (e : Event) (he : exec e.toInstr s = .next t) : s.dstate = .idle ∧ t = s.take e := by
    rw [exec_event] at he
    split at he
    · next hd => exact ⟨hd, by cases he; rfl⟩
    · cases he
  have request (req : Request) (hr : exec req.toInstr s = .next t) : t = s.serve req := by
    rw [exec_request] at hr
    cases hr
    rfl
  cases i with
  | rxByte b => exact .inl ⟨.rxByte b, rfl, event _ h⟩
  | onTimeout => exact .inl ⟨.onTimeout, rfl, event _ h⟩
  | reset => exact .inl ⟨.reset, rfl, event _ h⟩
  | readHoldingRegisters addr op => exact .inr (.inl ⟨.readHoldingRegisters addr op, rfl, request _ h⟩)
  | writeSingleRegister addr op => exact .inr (.inl ⟨.writeSingleRegister addr op, rfl, request _ h⟩)
  | writeMultipleRegisters addr op => exact .inr (.inl ⟨.writeMultipleRegisters addr op, rfl, request _ h⟩)
  | illegalFunction addr fn p => exact .inr (.inl ⟨.illegalFunction addr fn p, rfl, request _ h⟩)
  | replyRhr addr values => cases h; exact .inr (.inr rfl)
  | replyWsr addr a v => cases h; exact .inr (.inr rfl)
  | replyWmr addr a q => cases h; exact .inr (.inr rfl)
  | replyException addr fn code => cases h; exact .inr (.inr rfl)

/-- An event transmits nothing, or one frame that CRC_APPEND closed. -/
theorem take_sent (s : State) (e : Event) :
    (s.take e).sent = s.sent ∨ ∃ bytes, (s.take e).sent = s.sent ++ [crcAppend bytes] := by
  cases e with
  | rxByte b => exact .inl (receive_sent s b)
  | reset => exact .inl rfl
  | onTimeout =>
    show s.timeout.sent = s.sent ∨ ∃ bytes, s.timeout.sent = s.sent ++ [crcAppend bytes]
    rcases timeout_cases s with ⟨r, -, h⟩ | ⟨req, -, h⟩ <;> rw [h, returnToIdle_sent]
    · exact .inl rfl
    · obtain ⟨bytes, hserve⟩ := serve_answers { s with appended := false, dstate := .decoding, status := .ok } req
      exact .inr ⟨bytes, by rw [hserve]⟩

/-- An instruction transmits nothing, or one frame that CRC_APPEND closed (R103). -/
theorem exec_sent {i : Instr} {s t : State} (h : exec i s = .next t) :
    t.sent = s.sent ∨ ∃ bytes, t.sent = s.sent ++ [crcAppend bytes] := by
  rcases exec_next h with ⟨e, -, -, rfl⟩ | ⟨req, -, rfl⟩ | rfl
  · exact take_sent s e
  · obtain ⟨bytes, hserve⟩ := serve_answers s req
    exact .inr ⟨bytes, by rw [hserve]⟩
  · exact .inr ⟨body i, rfl⟩

/-- Settles O12: the bytes listed by index are the frame without its last two, and the trailer is one 16-bit value, so
comparing words compares their values. -/
theorem crcCheckComparesTrailer : Obligations.CrcCheckComparesTrailer := by
  unfold Obligations.CrcCheckComparesTrailer
  intro f _
  rw [range_map_getD f _ (Nat.sub_le _ _), crcOk_iff, ← BitVec.toNat_inj, be16_toNat, Nat.mul_comm, Nat.add_comm]

/-- Settles O13: whatever is transmitted was closed by CRC_APPEND, and the CRC of a closed frame is its trailer. -/
theorem crcAcceptsWhatItClosed : Obligations.CrcAcceptsWhatItClosed := by
  unfold Obligations.CrcAcceptsWhatItClosed
  refine ⟨fun bytes => ⟨crcOk_crcAppend bytes, crcAppend_length bytes⟩, fun s t i reply hexec hsent => ?_⟩
  rcases exec_sent hexec with hsilent | ⟨bytes, hframe⟩
  · simp [hsilent] at hsent
  · obtain rfl : crcAppend bytes = reply := by simpa [hframe] using hsent
    exact crcOk_crcAppend bytes

end Sys2Proof.Machine
end

section
/-! PROOFS. The family 42_frame_dispatcher.md: no rule reads the status or a counter (R119), a frame with a wrong CRC is
discarded (R113), and the first failed check decides the reply (R115). -/

namespace Sys2Proof.Machine

/-! Two states that differ in status and counters only stay so, whatever the engine or PORTB does. -/

/-- `t` differs from `s` in the status and the two counters at most. -/
def State.diagnosticsOnly (s t : State) : Prop :=
  ∃ st rx tx, t = { s with status := st, rxCount := rx, txCount := tx }

theorem diagnosticsOnly_begin {s t : State} (h : s.diagnosticsOnly t) (rest : List Input) :
    (s.begin rest).diagnosticsOnly (t.begin rest) := by
  obtain ⟨st, rx, tx, rfl⟩ := h
  exact ⟨st, rx, tx, rfl⟩

theorem diagnosticsOnly_portbStep {s t : State} (h : s.diagnosticsOnly t) (op : PortbOp) :
    (s.portbStep op).diagnosticsOnly (t.portbStep op) := by
  obtain ⟨st, rx, tx, rfl⟩ := h
  refine ⟨st, rx, tx, ?_⟩
  cases op with
  | read a => rfl
  | write a v =>
    simp only [State.portbStep, State.memWrite]
    split <;> rfl

theorem diagnosticsOnly_receive {s t : State} (h : s.diagnosticsOnly t) (b : Byte) :
    (s.receive b).diagnosticsOnly (t.receive b) := by
  obtain ⟨st, rx, tx, rfl⟩ := h
  rcases receive_cases s b with ⟨hroom, hs⟩ | ⟨hfull, hs⟩ <;>
    rcases receive_cases { s with status := st, rxCount := rx, txCount := tx } b with ⟨hroom', ht⟩ | ⟨hfull', ht⟩
  · exact ⟨st, satInc s.cfg.ctrWidth rx, tx, by rw [hs, ht]⟩
  · exact absurd hroom (Nat.not_lt.2 hfull')
  · exact absurd hroom' (Nat.not_lt.2 hfull)
  · exact ⟨st, satInc s.cfg.ctrWidth rx, tx, by rw [hs, ht]⟩

/-- A request's procedure looks at the configuration, the store and PORTB's schedule, and writes the reply, never a counter's
value, into what both states share. -/
theorem diagnosticsOnly_serve {s t : State} (h : s.diagnosticsOnly t) (req : Request) :
    (s.serve req).diagnosticsOnly (t.serve req) := by
  obtain ⟨st, rx, tx, rfl⟩ := h
  generalize ht : ({ s with status := st, rxCount := rx, txCount := tx } : State) = t
  have halike : s.alike t := by subst ht; exact ⟨rfl, rfl, rfl⟩
  obtain ⟨⟨⟨-, hx, hsched⟩, seen, hseen, hseen'⟩, ⟨bytes, hs, ht'⟩, -⟩ := serve_alike halike req
  refine ⟨(t.serve req).status, (t.serve req).rxCount, (t.serve req).txCount, ?_⟩
  rw [hs, ht', ← hx, ← hsched, hseen, hseen', ← ht]

theorem diagnosticsOnly_timeout {s t : State} (h : s.diagnosticsOnly t) : s.timeout.diagnosticsOnly t.timeout := by
  obtain ⟨st, rx, tx, rfl⟩ := h
  rcases timeout_cases s with ⟨r, hdec, hs⟩ | ⟨req, hdec, hs⟩ <;>
    rcases timeout_cases { s with status := st, rxCount := rx, txCount := tx } with ⟨r', hdec', ht⟩ | ⟨req', hdec', ht⟩ <;>
    cases hdec.symm.trans hdec' <;> rw [hs, ht]
  · exact ⟨_, _, _, rfl⟩
  · obtain ⟨st', rx', tx', hserve⟩ := diagnosticsOnly_serve
      (s := { s with appended := false, dstate := .decoding, status := .ok })
      (t := { s with appended := false, dstate := .decoding, status := .ok, rxCount := rx, txCount := tx })
      ⟨_, _, _, rfl⟩ req
    exact ⟨st', rx', tx', congrArg State.returnToIdle hserve⟩

theorem diagnosticsOnly_take {s t : State} (h : s.diagnosticsOnly t) (e : Event) :
    (s.take e).diagnosticsOnly (t.take e) := by
  cases e with
  | rxByte b => exact diagnosticsOnly_receive h b
  | onTimeout => exact diagnosticsOnly_timeout h
  | reset =>
    obtain ⟨st, rx, tx, rfl⟩ := h
    exact ⟨_, _, _, rfl⟩

/-- Two such states step alike: both to a next state, and the two differ in status and counters at most, or both are refused
with one reason. -/
theorem diagnosticsOnly_step {s t : State} (h : s.diagnosticsOnly t) :
    (∃ s' t', step s = .next s' ∧ step t = .next t' ∧ s'.diagnosticsOnly t') ∨
    ∃ r, step s = .refused r ∧ step t = .refused r := by
  have hbegin := diagnosticsOnly_begin h
  have hcfg : t.cfg = s.cfg := by obtain ⟨_, _, _, rfl⟩ := h; rfl
  have hinbox : t.inbox = s.inbox := by obtain ⟨_, _, _, rfl⟩ := h; rfl
  have hdstate : t.dstate = s.dstate := by obtain ⟨_, _, _, rfl⟩ := h; rfl
  unfold step
  rw [hcfg, hinbox]
  by_cases hwf : s.cfg.wf
  · rw [if_pos hwf, if_pos hwf]
    rcases s.inbox with _ | ⟨e | op, rest⟩
    · exact .inl ⟨_, _, rfl, rfl, hbegin []⟩
    · by_cases hidle : s.dstate = .idle
      · exact .inl ⟨_, _, (exec_event e _).trans (if_pos hidle), (exec_event e _).trans (if_pos (hdstate.trans hidle)),
          diagnosticsOnly_take (hbegin rest) e⟩
      · exact .inr ⟨_, (exec_event e _).trans (if_neg hidle), (exec_event e _).trans (if_neg (hdstate ▸ hidle))⟩
    · exact .inl ⟨_, _, rfl, rfl, diagnosticsOnly_portbStep (hbegin rest) op⟩
  · rw [if_neg hwf, if_neg hwf]
    exact .inr ⟨_, rfl, rfl⟩

/-- Settles O48: the two states differ in status and counters only, so they step alike. -/
theorem statusAndCountersAreNeverRead : Obligations.StatusAndCountersAreNeverRead := by
  unfold Obligations.StatusAndCountersAreNeverRead
  intro s st rx tx s'
  rcases diagnosticsOnly_step (s := s) (t := s') ⟨st, rx, tx, rfl⟩ with
    ⟨u, u', hu, hu', st', rx', tx', hdiff⟩ | ⟨reason, hr, hr'⟩
  · refine ⟨fun t ht => ?_, fun r => by simp [hu, hu']⟩
    obtain rfl : u = t := by simpa [hu] using ht
    exact ⟨st', rx', tx', hdiff ▸ hu'⟩
  · exact ⟨fun t ht => by simp [hr] at ht, fun r => by rw [hr, hr']⟩

/-! A frame that fails one of the first three checks. -/

/-- The CRC check, on the bytes of the buffer (R102). -/
theorem crcOk_frame_iff {s : State} (h : 2 ≤ s.widx) :
    crcOk s.frame = true ↔
      crc16 ((List.range (s.widx - 2)).map s.buf.read) = be16 (s.buf.read (s.widx - 1)) (s.buf.read (s.widx - 2)) := by
  rw [crcOk_iff, frame_length, frame_take s _ (by omega), frame_getD s _ (by omega), frame_getD s _ (by omega)]

/-- Settles O43: the frame decodes to the reject `crcError`, and a rejected frame leaves its status only. -/
theorem corruptFrameIsDiscarded : Obligations.CorruptFrameIsDiscarded := by
  unfold Obligations.CorruptFrameIsDiscarded
  intro s hidle hlen haddr hcrc
  have hbad : crcOk s.frame = false := by
    rw [← Bool.not_eq_true, crcOk_frame_iff (by omega), ← BitVec.toNat_inj, be16_toNat]
    omega
  have hdec : decode s.cfg.slaveAddr s.frame = .error .crcError :=
    (decode_crcError_iff _ _).2 ⟨by simpa using hlen, by rw [frame_getD s 0 (by omega), haddr], hbad⟩
  exact ⟨_, discarded hidle hdec, rfl, rfl⟩

/-! What ON_TIMEOUT transmits is decided by `accepted` first. -/

/-- A frame is accepted when its bytes in the buffer pass the length test, the address filter and the CRC check. -/
theorem accepted_frame_iff (s : State) : accepted s.cfg s.frame ↔
    4 ≤ s.widx ∧ s.buf.read 0 = s.cfg.slaveAddr ∧
      crc16 ((List.range (s.widx - 2)).map s.buf.read) = be16 (s.buf.read (s.widx - 1)) (s.buf.read (s.widx - 2)) := by
  unfold accepted
  rw [frame_length]
  refine and_congr_right fun h4 => ?_
  rw [frame_getD s 0 (by omega), ← crcOk_frame_iff (by omega), crcOk_iff, frame_length]

theorem timeout_sent_of_not_accepted {s : State} (h : ¬ accepted s.cfg s.frame) : s.timeout.sent = s.sent := by
  rcases timeout_cases s with ⟨r, -, ht⟩ | ⟨req, hdec, -⟩
  · rw [ht]; rfl
  · obtain ⟨hlen, haddr, hcrc, -⟩ := (decode_ok_iff _ _ _).1 hdec
    exact absurd ⟨hlen, haddr, (crcOk_iff _).1 hcrc⟩ h

/-- An accepted frame is served as what bytes 0 and 1 and the payload say. -/
theorem timeout_sent_of_accepted {s : State} (h : accepted s.cfg s.frame) :
    s.timeout.sent = ({ s with appended := false, dstate := .decoding, status := .ok }.serve
      (parseRequest (s.buf.read 0) (s.buf.read 1) (payloadOf s.frame))).sent := by
  obtain ⟨h4, -, -⟩ := (accepted_frame_iff s).1 h
  have hdecode := decode_of_accepted h
  rw [frame_getD s 0 (by omega), frame_getD s 1 (by omega)] at hdecode
  rcases timeout_cases s with ⟨r, hdec, -⟩ | ⟨req, hdec, ht⟩ <;> cases hdecode.symm.trans hdec
  rw [ht, returnToIdle_sent]

/-! The reply to an accepted frame, by the checks that are left: the length, then byteCount, then the range. -/

/-- What `t` has transmitted since `s` for a request with fields: the exception of the check on byteCount, else that of the
range check, else one normal reply (R115). -/
def State.repliesByFields (s t : State) (addr fn : Byte) (badCount valid : Prop) : Prop :=
  (badCount ∧ t.sent = s.sent ++ [crcAppend [addr, fn ||| 0x80#8, 0x03#8]]) ∨
  (¬ badCount ∧ ¬ valid ∧ t.sent = s.sent ++ [crcAppend [addr, fn ||| 0x80#8, 0x02#8]]) ∨
  (¬ badCount ∧ valid ∧ ∃ payload, t.sent = s.sent ++ [crcAppend (addr :: fn :: payload)])

theorem serveRead_repliesByFields (s : State) (addr : Byte) (a q : Word) (ignored : List Byte) {badCount : Prop}
    (hcount : ¬ badCount) :
    s.repliesByFields (s.serveRead addr (.fields a q ignored)) addr 0x03#8 badCount
      (s.validRange a.toNat q.toNat = true) := by
  by_cases hvalid : s.validRange a.toNat q.toNat = true
  · exact .inr (.inr ⟨hcount, hvalid, readPayload (s.readCells a.toNat q.toNat).1, by simp [State.serveRead, hvalid]⟩)
  · exact .inr (.inl ⟨hcount, hvalid, by simp [State.serveRead, hvalid, ExceptionCode.byte]⟩)

theorem serveWrite_repliesByFields (s : State) (addr : Byte) (a v : Word) (ignored : List Byte) {badCount : Prop}
    (hcount : ¬ badCount) :
    s.repliesByFields (s.serveWrite addr (.fields a v ignored)) addr 0x06#8 badCount (s.validRange a.toNat 1 = true) := by
  by_cases hvalid : s.validRange a.toNat 1 = true
  · exact .inr (.inr ⟨hcount, hvalid, [hi a, lo a, hi v, lo v], by simp [State.serveWrite, hvalid]⟩)
  · exact .inr (.inl ⟨hcount, hvalid, by simp [State.serveWrite, hvalid, ExceptionCode.byte]⟩)

theorem serveWriteMultiple_repliesByFields (s : State) (addr : Byte) (a q : Word) (byteCount : Byte) (data : List Byte)
    {badCount : Prop} (hcount : badCount ↔ byteCount.toNat ≠ 2 * q.toNat) :
    s.repliesByFields (s.serveWriteMultiple addr (.fields a q byteCount data)) addr 0x10#8 badCount
      (s.validRange a.toNat q.toNat = true) := by
  unfold State.repliesByFields
  rw [hcount]
  by_cases hbad : byteCount.toNat = 2 * q.toNat
  · by_cases hvalid : s.validRange a.toNat q.toNat = true
    · exact .inr (.inr ⟨not_not.2 hbad, hvalid, [hi a, lo a, hi q, lo q],
        by simp [State.serveWriteMultiple, byteCountMatches, hbad, hvalid]⟩)
    · exact .inr (.inl ⟨not_not.2 hbad, hvalid,
        by simp [State.serveWriteMultiple, byteCountMatches, hbad, hvalid, ExceptionCode.byte]⟩)
  · exact .inl ⟨hbad, by simp [State.serveWriteMultiple, byteCountMatches, hbad, ExceptionCode.byte]⟩

/-- The lengths that function `fn` does not accept (R117). -/
def badLength (fn : Byte) (f : Frame) : Prop :=
  if fn = 0x10#8 then f.length < 9 ∨ f.length ≠ 9 + (f.getD 6 0).toNat else f.length < 8

/-- The number of cells that a request with fields names: one for function 0x06. -/
def cellCount (fn : Byte) (quantity : Nat) : Nat := if fn = 0x06#8 then 1 else quantity

theorem serve_sent_of_unknown (s : State) (addr : Byte) {fn : Byte} (p : List Byte) (hfn : fn ∉ [0x03#8, 0x06#8, 0x10#8]) :
    (s.serve (parseRequest addr fn p)).sent = s.sent ++ [crcAppend [addr, fn ||| 0x80#8, 0x01#8]] := by
  rcases parseRequest_cases addr fn p with ⟨rfl, -⟩ | ⟨rfl, -⟩ | ⟨rfl, -⟩ | ⟨-, -, -, h⟩
  · exact absurd (by decide) hfn
  · exact absurd (by decide) hfn
  · exact absurd (by decide) hfn
  · rw [h]; rfl

/-- A frame of a wrong length is answered IllegalDataValue before any field is looked at. -/
theorem serve_sent_of_badLength (s : State) (addr : Byte) {fn : Byte} {f : Frame} (h4 : 4 ≤ f.length)
    (hfn : fn ∈ [0x03#8, 0x06#8, 0x10#8]) (hbad : badLength fn f) :
    (s.serve (parseRequest addr fn (payloadOf f))).sent = s.sent ++ [crcAppend [addr, fn ||| 0x80#8, 0x03#8]] := by
  have hpair (h : f.length < 8) : parsePair (payloadOf f) = .short (payloadOf f) :=
    parsePair_short (by rw [payload_length]; omega)
  rcases parseRequest_cases addr fn (payloadOf f) with ⟨rfl, h⟩ | ⟨rfl, h⟩ | ⟨rfl, h⟩ | ⟨h3, h6, h10, -⟩
  · rw [h, hpair hbad]; rfl
  · rw [h, hpair hbad]; rfl
  · rw [h, multi_bad_of_frame f h4 hbad]; rfl
  · simp [h3, h6, h10] at hfn

/-- A frame of an accepted length is answered by its fields, read at their offsets. -/
theorem serve_repliesByFields (s : State) (addr : Byte) {fn : Byte} {f : Frame}
    (hfn : fn ∈ [0x03#8, 0x06#8, 0x10#8]) (hlen : ¬ badLength fn f) :
    s.repliesByFields (s.serve (parseRequest addr fn (payloadOf f))) addr fn
      (fn = 0x10#8 ∧ (f.getD 6 0).toNat ≠ 2 * cellCount fn (be16 (f.getD 4 0) (f.getD 5 0)).toNat)
      (s.validRange (be16 (f.getD 2 0) (f.getD 3 0)).toNat (cellCount fn (be16 (f.getD 4 0) (f.getD 5 0)).toNat) = true) := by
  rcases parseRequest_cases addr fn (payloadOf f) with ⟨rfl, h⟩ | ⟨rfl, h⟩ | ⟨rfl, h⟩ | ⟨h3, h6, h10, -⟩
  · rw [h, pair_of_frame f (Nat.le_of_not_lt hlen)]
    exact serveRead_repliesByFields s addr _ _ [] fun hcount => absurd hcount.1 (by decide)
  · rw [h, pair_of_frame f (Nat.le_of_not_lt hlen)]
    exact serveWrite_repliesByFields s addr _ _ [] fun hcount => absurd hcount.1 (by decide)
  · rw [h, multi_of_frame f (not_not.1 (not_or.1 hlen).2)]
    exact serveWriteMultiple_repliesByFields s addr _ _ _ _ (and_iff_right rfl)
  · simp [h3, h6, h10] at hfn

theorem badLength_frame_iff (s : State) (fn : Byte) : badLength fn s.frame ↔
    if fn = 0x10#8 then s.widx < 9 ∨ s.widx ≠ 9 + (s.buf.read 6).toNat else s.widx < 8 := by
  unfold badLength
  rw [frame_length]
  split
  · refine or_congr_right' fun h9 => ?_
    rw [frame_getD s 6 (by omega)]
  · rfl

/-- A request of an accepted length is answered by its fields, read from the bytes of the buffer. -/
theorem serve_frame_repliesByFields {s s' : State} (hcfg : s'.cfg = s.cfg) (addr : Byte) {fn : Byte}
    (hfn : fn ∈ [0x03#8, 0x06#8, 0x10#8]) (hlen : ¬ badLength fn s.frame) :
    let b := fun i => s.buf.read i
    let a := (b 2).toNat * 256 + (b 3).toNat
    let q := cellCount fn ((b 4).toNat * 256 + (b 5).toNat)
    s'.repliesByFields (s'.serve (parseRequest addr fn (payloadOf s.frame))) addr fn
      (fn = 0x10#8 ∧ (b 6).toNat ≠ 2 * q)
      (1 ≤ q ∧ a + q ≤ 64 ∧ ∃ B ∈ s.cfg.blocks, B.start ≤ a ∧ a + q ≤ B.start + B.length) := by
  have h8 : 8 ≤ s.widx ∧ (fn = 0x10#8 → 9 ≤ s.widx) := by
    rw [badLength_frame_iff] at hlen
    split at hlen
    · exact ⟨by omega, fun _ => by omega⟩
    · next h10 => exact ⟨by omega, fun h => absurd h h10⟩
  obtain ⟨h8, h9⟩ := h8
  have hcount (n : Nat) : (fn = 0x10#8 ∧ (s.frame.getD 6 0).toNat ≠ n) ↔ fn = 0x10#8 ∧ (s.buf.read 6).toNat ≠ n :=
    and_congr_right fun hfn => by rw [frame_getD s 6 (by have := h9 hfn; omega)]
  have hreply := serve_repliesByFields s' addr hfn hlen
  rw [hcount, State.validRange, validRange_iff, be16_toNat, be16_toNat, frame_getD s 2 (by omega),
    frame_getD s 3 (by omega), frame_getD s 4 (by omega), frame_getD s 5 (by omega), hcfg] at hreply
  exact hreply

/-- Settles O44: a frame that is not accepted is not answered; an accepted one is answered by its function byte, then its
length, then its fields. -/
theorem firstFailedCheckDecidesReply : Obligations.FirstFailedCheckDecidesReply := by
  unfold Obligations.FirstFailedCheckDecidesReply
  intro s hidle
  refine ⟨s.timeout, timeout_next hidle, ?_⟩
  -- Each `ite_prop_iff_and` is one check of R115: the outcome where it fails, then the checks after it.
  have haccepted := accepted_frame_iff s
  refine ite_prop_iff_and.2 ⟨fun hshort => timeout_sent_of_not_accepted fun h => ?_, fun hlen => ?_⟩
  · exact Nat.not_le.2 hshort (haccepted.1 h).1
  refine ite_prop_iff_and.2 ⟨fun haddr => timeout_sent_of_not_accepted fun h => haddr (haccepted.1 h).2.1, fun haddr => ?_⟩
  refine ite_prop_iff_and.2 ⟨fun hcrc => timeout_sent_of_not_accepted fun h => hcrc (haccepted.1 h).2.2, fun hcrc => ?_⟩
  have hok : accepted s.cfg s.frame := haccepted.2 ⟨Nat.le_of_not_lt hlen, not_not.1 haddr, not_not.1 hcrc⟩
  rw [timeout_sent_of_accepted hok]
  refine ite_prop_iff_and.2 ⟨serve_sent_of_unknown _ _ _, fun hfn => ?_⟩
  replace hfn := not_not.1 hfn
  refine ite_prop_iff_and.2 ⟨fun hbad => ?_, fun hgood => ?_⟩
  · exact serve_sent_of_badLength _ _ hok.1 hfn ((badLength_frame_iff s _).2 hbad)
  rcases serve_frame_repliesByFields (s := s) (s' := { s with appended := false, dstate := .decoding, status := .ok }) rfl
    (s.buf.read 0) hfn (mt (badLength_frame_iff s _).1 hgood) with
    ⟨hcount, hreply⟩ | ⟨hcount, hvalid, hreply⟩ | ⟨hcount, hvalid, hreply⟩
  · exact ite_prop_iff_and.2 ⟨fun _ => hreply, absurd hcount⟩
  · exact ite_prop_iff_and.2 ⟨(absurd · hcount), fun _ => ite_prop_iff_and.2 ⟨fun _ => hreply, absurd hvalid⟩⟩
  · exact ite_prop_iff_and.2 ⟨(absurd · hcount), fun _ => ite_prop_iff_and.2 ⟨absurd hvalid, fun _ => hreply⟩⟩

end Sys2Proof.Machine
end

section
/-! PROOFS. The family 44_register_store.md: the store's two operations (R150, R151), the range of a single register (R153),
and what PORTB can touch (R155). -/

namespace Sys2Proof

/-- A block of an admissible table lies inside the store (R4 b). -/
theorem Config.block_end_le {c : Config} (hwf : c.wf = true) {b : Block} (hb : b ∈ c.blocks) :
    b.start + b.length ≤ 64 := by
  simp only [Config.wf, Bool.and_eq_true, List.all_eq_true] at hwf
  obtain ⟨-, hblocks, -⟩ := hwf
  have hin := hblocks b hb
  simp only [Block.inStore, Bool.and_eq_true, decide_eq_true_eq] at hin
  exact hin.2

/-- The range of one register is valid exactly when its cell is in a block: that the cell is in the store follows (R153). -/
theorem validRange_one_iff {c : Config} (hwf : c.wf = true) (a : Nat) :
    validRange c.blocks a 1 = true ↔ ∃ b ∈ c.blocks, b.start ≤ a ∧ a < b.start + b.length := by
  rw [validRange_iff]
  refine ⟨fun ⟨_, _, hblock⟩ => hblock, fun hblock => ⟨Nat.le_refl 1, ?_, hblock⟩⟩
  obtain ⟨b, hb, -, hlt⟩ := hblock
  have hend := Config.block_end_le hwf hb
  omega

end Sys2Proof

namespace Sys2Proof.Machine

/-- Every cell of a validated range is a cell of the store (R152). -/
theorem lt_of_validRange {s : State} {a q i : Nat} (h : s.validRange a q = true) (hi : i < q) : a + i < 64 := by
  obtain ⟨-, hle, -⟩ := (validRange_iff s.cfg.blocks a q).1 h
  omega

/-- WSR with a valid range (R131). -/
theorem serveWrite_of_valid {s : State} {a : Word} (h : s.validRange a.toNat 1 = true) (addr : Byte) (v : Word)
    (ignored : List Byte) : s.serveWrite addr (.fields a v ignored) =
      (s.writeCells a.toNat [v]).forward [addr, 0x06#8, hi a, lo a, hi v, lo v] := by
  simp [State.serveWrite, h]

/-- WSR with an invalid range (R131): IllegalDataAddress. -/
theorem serveWrite_of_invalid {s : State} {a : Word} (h : s.validRange a.toNat 1 = false) (addr : Byte) (v : Word)
    (ignored : List Byte) : s.serveWrite addr (.fields a v ignored) = s.forward [addr, 0x86#8, 0x02#8] := by
  simp [State.serveWrite, h, ExceptionCode.byte]

/-- An instruction that only forwards a frame only replies. -/
theorem onlyReplies_of_forward {s : State} {i : Instr} {bytes : List Byte} (h : exec i s = .next (s.forward bytes)) :
    onlyReplies s i bytes := ⟨_, h, rfl⟩

/-- A step whose input is a PORTB operation performs it. -/
theorem step_portb {s : State} {op : PortbOp} {rest : List Input} (hwf : s.cfg.wf = true)
    (hinbox : s.inbox = .portb op :: rest) : step s = .next ((s.begin rest).portbStep op) := by
  rw [step, if_pos hwf, hinbox]

/-- Settles O21: the read-over-write rule of the store, its frame, and the second condition of the validator. -/
theorem storeReadsWhatWasWritten : Obligations.StoreReadsWhatWasWritten := by
  unfold Obligations.StoreReadsWhatWasWritten
  intro s a b v
  refine ⟨memRead_of_lt s a, memRead_of_ge s a, fun ha => ?_, memWrite_of_ge s a v, fun hne => ?_, ?_,
    fun q i hvalid hi => Nat.le_of_lt_succ (lt_of_validRange hvalid hi)⟩
  · rw [memRead_memWrite, if_pos ⟨rfl, ha⟩]
  · rw [memRead_memWrite, if_neg fun h => hne h.1]
  · rw [memWrite_frame]

/-- Settles O23: the validity of a single register's range is membership of its cell in a block, and WSR answers by it. -/
theorem singleRegisterIsValidInABlock : Obligations.SingleRegisterIsValidInABlock := by
  unfold Obligations.SingleRegisterIsValidInABlock
  intro s addr a v ignored hwf
  have hvalid : s.validRange a.toNat 1 = true ↔ _ := validRange_one_iff hwf a.toNat
  have hexec : exec (.writeSingleRegister addr (.fields a v ignored)) s =
      .next (s.serveWrite addr (.fields a v ignored)) := exec_request (.writeSingleRegister addr (.fields a v ignored)) s
  refine ⟨fun hblock => ?_, fun hnone => ?_⟩
  · have hin := hvalid.2 hblock
    rw [serveWrite_of_valid hin] at hexec
    exact ⟨hin, Nat.le_of_lt_succ (lt_of_validRange hin Nat.one_pos), _, hexec, by simp⟩
  · have hout : s.validRange a.toNat 1 = false := by
      rw [← Bool.not_eq_true, hvalid]
      exact fun ⟨b, hb, hcell⟩ => hnone b hb hcell
    rw [serveWrite_of_invalid hout] at hexec
    exact ⟨hout, onlyReplies_of_forward hexec⟩

/-- Settles O24: a PORTB step is one access of the store on the state whose input is taken, with no check before it. -/
theorem portbAccessesCellsOnly : Obligations.PortbAccessesCellsOnly := by
  unfold Obligations.PortbAccessesCellsOnly
  intro s rest a v hwf
  refine ⟨fun hread => ⟨_, step_portb hwf hread, rfl⟩, fun hwrite => ⟨_, step_portb hwf hwrite, fun b => ?_, ?_⟩⟩
  · exact memRead_memWrite (s.begin rest) a b v
  · show { (s.begin rest).memWrite a v with x := s.x, appended := s.appended } = { s with inbox := rest }
    rw [memWrite_frame]
    rfl

end Sys2Proof.Machine
end

section
/-! PROOFS. The family 45_response_builder.md: when a frame is forwarded (R175), what the count of forwarded frames does
(R172), and how long a reply is (R174). -/

namespace Sys2Proof

/-- A validated range is no longer than the longest block of the table. -/
theorem quantity_le_of_validRange {blocks : List Block} {a q n : Nat} (hblocks : ∀ b ∈ blocks, b.length ≤ n)
    (h : validRange blocks a q = true) : q ≤ n := by
  obtain ⟨-, -, b, hb, hstart, hend⟩ := (validRange_iff blocks a q).1 h
  have hlen := hblocks b hb
  omega

/-- The reference configuration with the whole store in one block: there a range of 64 registers is valid. -/
def Config.oneBlock : Config := { Config.reference with blocks := [⟨0, 64, "ALL"⟩] }

end Sys2Proof

namespace Sys2Proof.Machine

/-! Sending and counting are one operation, and it is reached from ON_TIMEOUT alone. -/

/-- ON_TIMEOUT transmits and counts exactly one frame when the frame in the buffer is accepted, else it does neither. -/
theorem timeout_forwards (s : State) :
    (s.timeout.sent = s.sent ∧ s.timeout.txCount = s.txCount) ∨
    (accepted s.cfg s.frame ∧ ∃ reply, s.timeout.sent = s.sent ++ [reply] ∧
      s.timeout.txCount = satInc s.cfg.ctrWidth s.txCount) := by
  rcases timeout_cases s with ⟨r, -, h⟩ | ⟨req, hdec, h⟩ <;> rw [h]
  · exact .inl ⟨rfl, rfl⟩
  · obtain ⟨hlen, haddr, hcrc, -⟩ := (decode_ok_iff _ _ _).1 hdec
    obtain ⟨-, -, -, -, -, -, -, hcount, bytes, hsent⟩ :=
      serve_fields { s with appended := false, dstate := .decoding, status := .ok } req
    exact .inr ⟨⟨hlen, haddr, (crcOk_iff _).1 hcrc⟩, crcAppend bytes, hsent, hcount⟩

@[simp] theorem receive_txCount (s : State) (b : Byte) : (s.receive b).txCount = s.txCount := by
  rcases receive_cases s b with ⟨-, h⟩ | ⟨-, h⟩ <;> rw [h]

/-- All that a step can transmit and count: nothing, or, at an ON_TIMEOUT with an accepted frame in the buffer, exactly one
frame that is counted once. RESET transmits nothing and zeroes the count. -/
theorem step_forwards {s t : State} (h : step s = .next t) :
    (t.sent = s.sent ∧ (t.txCount = s.txCount ∨ ∃ rest, s.inbox = .event .reset :: rest)) ∨
    ∃ rest reply, s.inbox = .event .onTimeout :: rest ∧ accepted s.cfg s.frame ∧ t.sent = s.sent ++ [reply] ∧
      t.txCount = satInc s.cfg.ctrWidth s.txCount := by
  obtain ⟨-, ⟨-, rfl⟩ | ⟨op, rest, -, rfl⟩ | ⟨e, rest, hinbox, -, rfl⟩⟩ := step_next h
  · exact .inl ⟨rfl, .inl rfl⟩
  · exact .inl ⟨by simp, .inl (by simp)⟩
  · cases e with
    | rxByte b => exact .inl ⟨receive_sent (s.begin rest) b, .inl (receive_txCount (s.begin rest) b)⟩
    | reset => exact .inl ⟨rfl, .inr ⟨rest, hinbox⟩⟩
    | onTimeout =>
      rcases timeout_forwards (s.begin rest) with ⟨hsent, hcount⟩ | ⟨hacc, reply, hsent, hcount⟩
      · exact .inl ⟨hsent, .inl hcount⟩
      · exact .inr ⟨rest, reply, hinbox, hacc, hsent, hcount⟩

/-- Settles O55: of all that a step can transmit, only the reply at an ON_TIMEOUT with an accepted frame is a frame. -/
theorem everyReplyAnswersAnAcceptedFrame : Obligations.EveryReplyAnswersAnAcceptedFrame := by
  unfold Obligations.EveryReplyAnswersAnAcceptedFrame
  intro s t hstep
  rcases step_forwards hstep with ⟨hsilent, -⟩ | ⟨rest, reply, hinbox, hacc, hsent, -⟩
  · exact .inl hsilent
  · exact .inr ⟨rest, reply, hinbox, hacc, hsent⟩

/-- Settles O56: a step that transmits nothing leaves the count unless it is RESET, and one that transmits counts once. -/
theorem txCountCountsForwardedFrames : Obligations.TxCountCountsForwardedFrames := by
  unfold Obligations.TxCountCountsForwardedFrames
  intro s t hstep hnoreset
  rcases step_forwards hstep with ⟨hsilent, hkept⟩ | ⟨rest, reply, -, -, hsent, hcount⟩
  · refine ⟨fun _ => hkept.resolve_right fun ⟨rest, hreset⟩ => hnoreset rest hreset, fun reply hsent => ?_⟩
    simp [hsilent] at hsent
  · refine ⟨fun hsilent => ?_, fun _ _ => hcount⟩
    simp [hsent] at hsilent

/-! The length of a reply. -/

/-- How long a reply is, by its kind: an exception has 5 bytes, the echo of a write 8, and a read of `q` registers `5 + 2q`,
where the range of the `q` registers is valid (R67 to R70). -/
theorem serve_reply_length {s : State} {req : Request} {reply : Frame} (h : (s.serve req).sent = s.sent ++ [reply]) :
    ((reply.getD 1 0).getLsbD 7 = true ∧ reply.length = 5) ∨
    (¬ (reply.getD 1 0).getLsbD 7 = true ∧
      (reply.length = 8 ∨ ∃ a q, s.validRange a q = true ∧ reply.length = 5 + 2 * q)) := by
  obtain ⟨addr, fn, p, hserve, hcase⟩ := serve_cases s req
  obtain rfl : crcAppend (addr :: fn :: p) = reply := by simpa [hserve] using h
  have hfn : (crcAppend (addr :: fn :: p)).getD 1 0 = fn := crcAppend_getD _ 1 (by simp)
  have hlen : (crcAppend (addr :: fn :: p)).length = p.length + 4 := crcAppend_length _
  rw [hfn, hlen]
  rcases hcase with ⟨hbit, hp, -⟩ | ⟨rfl, a, q, -, -, hvalid, rfl, -⟩ | ⟨rfl, a, v, -, -, rfl, -⟩ |
    ⟨rfl, a, q, -, -, -, rfl, -⟩
  · exact .inl ⟨hbit, by rw [hp]⟩
  · refine .inr ⟨by decide, .inr ⟨_, _, hvalid, ?_⟩⟩
    simp [readPayload]
    omega
  · exact .inr ⟨by decide, .inl rfl⟩
  · exact .inr ⟨by decide, .inl rfl⟩

/-- A read of a valid range is answered with `5 + 2q` bytes (R67). -/
theorem exec_read_reply_length {s : State} {a q : Word} (h : s.validRange a.toNat q.toNat = true) (addr : Byte)
    (ignored : List Byte) :
    ∃ t reply, exec (.readHoldingRegisters addr (.fields a q ignored)) s = .next t ∧ t.sent = s.sent ++ [reply] ∧
      reply.length = 5 + 2 * q.toNat := by
  refine ⟨_, crcAppend (addr :: 0x03#8 :: readPayload (s.readCells a.toNat q.toNat).1), rfl, ?_, ?_⟩
  · simp [State.serveRead, h]
  · simp [readPayload]
    omega

/-- No block of the reference table has more than 16 registers. -/
theorem reference_block_length_le : ∀ b ∈ Config.reference.blocks, b.length ≤ 16 := by decide

/-- Settles O40: the bounds are those of a valid range, 64 registers in the store and 16 in a block of the reference table;
the longest replies are read there, and a request with an unknown function has the shortest. -/
theorem replyLengthIsBounded : Obligations.ReplyLengthIsBounded := by
  unfold Obligations.ReplyLengthIsBounded
  refine ⟨fun s t req reply _ hexec hsent => ?_, ?_, ?_, ?_⟩
  · obtain rfl : s.serve req = t := by simpa using hexec
    rcases serve_reply_length hsent with ⟨hbit, hlen⟩ | ⟨hbit, hlen | ⟨a, q, hvalid, hlen⟩⟩
    · exact ⟨by omega, by omega, fun _ => hlen, fun _ => by omega⟩
    · exact ⟨by omega, by omega, (absurd · hbit), fun _ => by omega⟩
    · obtain ⟨-, hstore, -⟩ := (validRange_iff s.cfg.blocks a q).1 hvalid
      refine ⟨by omega, by omega, (absurd · hbit), fun hblocks => ?_⟩
      have hq : q ≤ 16 := quantity_le_of_validRange (hblocks ▸ reference_block_length_le) hvalid
      omega
  · obtain ⟨t, reply, hexec, hsent, hlen⟩ := exec_read_reply_length (s := { State.reset with cfg := Config.oneBlock })
      (a := 0x0000#16) (q := 0x0040#16) (by decide) 0x01#8 []
    exact ⟨_, t, 0x01#8, reply, by decide, hexec, hsent, hlen⟩
  · obtain ⟨t, reply, hexec, hsent, hlen⟩ := exec_read_reply_length (s := State.reset)
      (a := 0x0000#16) (q := 0x0010#16) (by decide) 0x01#8 []
    exact ⟨_, t, 0x01#8, _, _, reply, rfl, hexec, hsent, hlen⟩
  · exact ⟨State.reset, _, .illegalFunction 0x01#8 0x83#8 [], _, rfl, rfl, rfl, rfl⟩

end Sys2Proof.Machine
end

section
/-! PROOFS. The codec: a well-formed request and its frame stand for each other (30_encoding.md sections 1 to 4), the replies
are read back (section 5), and byte 1 selects the request. -/

namespace Sys2Proof

/-! Requests. -/

/-- The frame of a request is its bytes and their CRC. -/
theorem encode_request (req : Request) : encode req.toInstr = crcAppend (body req.toInstr) := by
  cases req <;> rfl

/-- A closed frame with the engine's address decodes to what the function decode reads from its bytes. -/
theorem decode_crcAppend (addr fn : Byte) (p : List Byte) :
    decode addr (crcAppend (addr :: fn :: p)) = .ok (parseRequest addr fn p) := by
  refine (decode_ok_iff _ _ _).2 ⟨by simp, crcAppend_getD _ 0 (by simp), crcOk_crcAppend _, ?_⟩
  rw [crcAppend_getD _ 0 (by simp), crcAppend_getD _ 1 (by simp), payloadOf_crcAppend]
  rfl

theorem requestFits_iff (c : Config) (addr : Byte) (size : Nat) :
    requestFits c addr size = true ↔ addr = c.slaveAddr ∧ 4 + size ≤ c.bufCap := by
  simp [requestFits]

/-- A well-formed request is what the function decode reads from its own bytes, which carry the engine's address and leave
room in the buffer for the CRC. -/
theorem exists_body_of_wf {c : Config} {req : Request} (h : req.wf c = true) :
    ∃ fn p, body req.toInstr = c.slaveAddr :: fn :: p ∧ 4 + p.length ≤ c.bufCap ∧ parseRequest c.slaveAddr fn p = req := by
  cases req with
  | readHoldingRegisters addr op =>
    obtain ⟨hfits, hop⟩ := Bool.and_eq_true_iff.1 h
    obtain ⟨rfl, hlen⟩ := (requestFits_iff _ _ _).1 hfits
    exact ⟨0x03#8, op.bytes, rfl, by rwa [pairBytes_length], congrArg _ (parsePair_of_bytes op hop)⟩
  | writeSingleRegister addr op =>
    obtain ⟨hfits, hop⟩ := Bool.and_eq_true_iff.1 h
    obtain ⟨rfl, hlen⟩ := (requestFits_iff _ _ _).1 hfits
    exact ⟨0x06#8, op.bytes, rfl, by rwa [pairBytes_length], congrArg _ (parsePair_of_bytes op hop)⟩
  | writeMultipleRegisters addr op =>
    obtain ⟨hfits, hop⟩ := Bool.and_eq_true_iff.1 h
    obtain ⟨rfl, hlen⟩ := (requestFits_iff _ _ _).1 hfits
    exact ⟨0x10#8, op.bytes, rfl, by rwa [multiBytes_length], congrArg _ (parseMulti_of_bytes op hop)⟩
  | illegalFunction addr fn p =>
    obtain ⟨hfits, hfn⟩ := Bool.and_eq_true_iff.1 h
    obtain ⟨rfl, hlen⟩ := (requestFits_iff _ _ _).1 hfits
    simp only [Bool.and_eq_true, bne_iff_ne] at hfn
    obtain ⟨⟨h3, h6⟩, h10⟩ := hfn
    exact ⟨fn, p, rfl, hlen, by simp [parseRequest, h3, h6, h10]⟩

/-- The frame of a well-formed request fits the buffer (R75). -/
theorem encode_length_le {c : Config} {req : Request} (h : req.wf c = true) : (encode req.toInstr).length ≤ c.bufCap := by
  obtain ⟨fn, p, hbody, hlen, -⟩ := exists_body_of_wf h
  rw [encode_request, hbody, crcAppend_length, List.length_cons, List.length_cons]
  omega

/-- What the function decode reads is well formed when the bytes fit the buffer (R75). -/
theorem parseRequest_wf {c : Config} {p : List Byte} (hp : 4 + p.length ≤ c.bufCap) (fn : Byte) :
    (parseRequest c.slaveAddr fn p).wf c = true := by
  have hfits : requestFits c c.slaveAddr p.length = true := (requestFits_iff _ _ _).2 ⟨rfl, hp⟩
  rcases parseRequest_cases c.slaveAddr fn p with ⟨-, h⟩ | ⟨-, h⟩ | ⟨-, h⟩ | ⟨h3, h6, h10, h⟩ <;>
    simp [h, Request.wf, Request.toInstr, Instr.wf, hfits]
  exact ⟨⟨h3, h6⟩, h10⟩

/-- A frame that decodes was closed by CRC_APPEND over the bytes of its request. -/
theorem crcAppend_body_of_decode {a : Byte} {f : Frame} {req : Request} (h : decode a f = .ok req) :
    crcAppend (body req.toInstr) = f := by
  obtain ⟨hlen, -, hcrc, -⟩ := (decode_ok_iff _ _ _).1 h
  rw [body_of_decode h]
  exact (eq_crcAppend_of_trailer f (by omega) ((crcOk_iff f).1 hcrc)).symm

/-- Settles O18: the decoder's checks pass on a closed frame, and the parsers read a well-formed request's bytes back. -/
theorem encodedRequestDecodesToItself : Obligations.EncodedRequestDecodesToItself := by
  unfold Obligations.EncodedRequestDecodesToItself
  intro c req hwf
  obtain ⟨fn, p, hbody, -, hparse⟩ := exists_body_of_wf hwf
  rw [encode_request, hbody, decode_crcAppend, hparse]

/-- Settles O19: the parsers lose no byte and the trailer is the CRC of the rest; what they answer is of the form its length
asks for. -/
theorem decodedFrameEncodesToItself : Obligations.DecodedFrameEncodesToItself := by
  unfold Obligations.DecodedFrameEncodesToItself
  intro c f req hdec
  refine ⟨by rw [encode_request, crcAppend_body_of_decode hdec], fun hfits => ?_⟩
  obtain ⟨hlen, haddr, -, rfl⟩ := (decode_ok_iff _ _ _).1 hdec
  rw [haddr]
  exact parseRequest_wf (by rw [payload_length]; omega) _

/-! Replies. -/

/-- A closed frame with at least one payload byte is read as a reply by its function byte and its payload. -/
theorem decodeReply_crcAppend (addr fn b : Byte) (p : List Byte) :
    decodeReply (crcAppend (addr :: fn :: b :: p)) = parseReply addr fn (b :: p) := by
  unfold decodeReply
  rw [if_neg (by simp), if_neg (by simp [crcOk_crcAppend]), payloadOf_crcAppend, crcAppend_getD _ 0 (by simp),
    crcAppend_getD _ 1 (by simp)]
  rfl

theorem ofByte_byte (code : ExceptionCode) : ExceptionCode.ofByte code.byte = some code := by
  cases code <;> rfl

theorem parseReply_exception {addr fn : Byte} (hfn : fn.getLsbD 7 = true) (code : ExceptionCode) :
    parseReply addr fn [code.byte] = .ok (.replyException addr fn code) := by
  simp [parseReply, hfn, ofByte_byte]

/-- Up to 127 values the byte count holds their number twice, and the values are read back from it. -/
theorem parseReply_read (addr : Byte) {values : List Word} (hlen : values.length < 128) :
    parseReply addr 0x03#8 (BitVec.ofNat 8 (2 * values.length) :: bytesOf values) = .ok (.replyRhr addr values) := by
  have hcount : (BitVec.ofNat 8 (2 * values.length)).toNat = 2 * values.length := by
    rw [BitVec.toNat_ofNat]
    omega
  simp [parseReply, -BitVec.toNat_ofNat, hcount]

/-- `function | 0x80` is the function code where bit 7 is set already. -/
theorem or_bit7_of_bit7 : ∀ fn : Byte, fn.getLsbD 7 = true → fn ||| 0x80#8 = fn := by decide +kernel

/-- Settles O20: the reply decoder's checks pass on a closed frame, and each payload is read back by its function byte. -/
theorem encodedReplyReadsBackAsItself : Obligations.EncodedReplyReadsBackAsItself := by
  unfold Obligations.EncodedReplyReadsBackAsItself
  intro c addr
  refine ⟨fun values hwf => ?_, fun a v _ => ?_, fun a q _ => ?_, fun fn code hwf => ?_⟩
  · simp only [Instr.wf, Bool.and_eq_true, decide_eq_true_eq] at hwf
    exact (decodeReply_crcAppend _ _ _ _).trans (parseReply_read addr (by omega))
  · exact (decodeReply_crcAppend _ _ _ _).trans (by simp [parseReply])
  · exact (decodeReply_crcAppend _ _ _ _).trans (by simp [parseReply])
  · have hbit : fn.getLsbD 7 = true := (Bool.and_eq_true_iff.1 hwf).2
    refine (decodeReply_crcAppend _ _ _ _).trans ?_
    rw [or_bit7_of_bit7 fn hbit]
    exact parseReply_exception hbit code

/-! The CRC of a whole frame. -/

/-- One round loses nothing: the constant sets bit 15, which the shift has cleared. -/
theorem crcRounds_eq_zero_iff (n : Nat) : ∀ c : Word, crcRounds n c = 0#16 ↔ c = 0#16 := by
  induction n with
  | zero => exact fun c => Iff.rfl
  | succ n ih =>
    intro c
    rw [crcRounds]
    split
    · next hbit =>
      refine iff_of_false (fun h => ?_) (fun h => by simp [h] at hbit)
      have htop := congrArg (BitVec.getLsbD · 15) ((ih _).1 h)
      simp at htop
    · next hbit =>
      rw [ih]
      refine ⟨fun h => BitVec.eq_of_getLsbD_eq fun i _ => ?_, fun h => by simp [h]⟩
      cases i with
      | zero => simpa using hbit
      | succ i => simpa [Nat.add_comm] using congrArg (BitVec.getLsbD · i) h

/-- The eight rounds are injective: they are linear, and only 0 leaves nothing. -/
theorem crcRounds_inj (n : Nat) {c d : Word} : crcRounds n c = crcRounds n d ↔ c = d := by
  rw [← BitVec.xor_eq_zero_iff, ← rounds_xor, crcRounds_eq_zero_iff, BitVec.xor_eq_zero_iff]

theorem be16_eq_xor (h l : Byte) : be16 h l = (h.setWidth 16 <<< 8) ^^^ l.setWidth 16 := by
  rw [split_word (be16 h l), hi_be16, lo_be16]

/-- Two more bytes take a CRC to zero exactly when they are that CRC, low byte first: the first step leaves the second byte
only then, and the rounds carry a byte of the high half down (R105). -/
theorem crcStep_crcStep_eq_zero_iff (c : Word) (l h : Byte) :
    crcStep (crcStep c l) h = 0#16 ↔ c = be16 h l := by
  calc crcStep (crcStep c l) h = 0#16
      ↔ crcRounds 8 (c ^^^ l.setWidth 16) = h.setWidth 16 := by
        rw [crcStep, crcRounds_eq_zero_iff, BitVec.xor_eq_zero_iff, crcStep]
    _ ↔ c ^^^ l.setWidth 16 = h.setWidth 16 <<< 8 := by rw [← crcRounds_inj 8 (d := h.setWidth 16 <<< 8), rounds_hi]
    _ ↔ c = be16 h l := by
        rw [be16_eq_xor, ← BitVec.xor_eq_zero_iff, BitVec.xor_assoc, BitVec.xor_comm (l.setWidth 16),
          BitVec.xor_eq_zero_iff]

/-- A frame of at least two bytes ends in two bytes. -/
theorem eq_take_append_trailer (f : Frame) (h : 2 ≤ f.length) :
    f = f.take (f.length - 2) ++ [f.getD (f.length - 2) 0, f.getD (f.length - 1) 0] := by
  obtain ⟨n, hn⟩ : ∃ n, f.length = n + 2 := ⟨f.length - 2, by omega⟩
  have hdrop : f.drop n = [f[n], f[n + 1]] := by
    rw [List.drop_eq_getElem_cons (by omega), List.drop_eq_getElem_cons (by omega), List.drop_of_length_le (by omega)]
  have htrailer : [f.getD n 0, f.getD (n + 1) 0] = f.drop n := by simp [hdrop, hn]
  simp only [hn, Nat.add_sub_cancel, Nat.add_succ_sub_one, htrailer, List.take_append_drop]

theorem crc16_append_pair (s : List Byte) (l h : Byte) : crc16 (s ++ [l, h]) = crcStep (crcStep (crc16 s) l) h := by
  simp [crc16]

/-- Settles O14: over the trailer the CRC goes to zero exactly when the trailer is the CRC of the bytes before it. -/
theorem crcResidueIsZero : Obligations.CrcResidueIsZero := by
  unfold Obligations.CrcResidueIsZero
  refine ⟨fun s => ?_, fun f hlen => ?_⟩
  · rw [crcAppend, crc16_append_pair, crcStep_crcStep_eq_zero_iff, be16_hi_lo]
  · conv_rhs => rw [eq_take_append_trailer f hlen]
    rw [crcOk_iff, crc16_append_pair, crcStep_crcStep_eq_zero_iff]

end Sys2Proof

namespace Sys2Proof.Machine

/-! The function decode. -/

/-- Settles O15: the decoder is run on the six frames. -/
theorem specFramesDecode : Obligations.SpecFramesDecode := ⟨rfl, rfl, rfl, rfl, rfl, rfl⟩

theorem decode_ok_iff_accepted (c : Config) (f : Frame) : (∃ req, decode c.slaveAddr f = .ok req) ↔ accepted c f := by
  refine ⟨fun ⟨req, hdec⟩ => ?_, fun hacc => ⟨_, decode_of_accepted hacc⟩⟩
  obtain ⟨hlen, haddr, hcrc, -⟩ := (decode_ok_iff _ _ _).1 hdec
  exact ⟨hlen, haddr, (crcOk_iff f).1 hcrc⟩

/-- An unknown function code is answered IllegalFunction and nothing else, whatever the payload (R133). -/
theorem illegalFunction_onlyReplies (s : State) (addr fn : Byte) (p : List Byte) :
    onlyReplies s (.illegalFunction addr fn p) [addr, fn ||| 0x80#8, 0x01#8] := onlyReplies_of_forward rfl

/-- Settles O16: the function decode has four answers, one for each of three codes and one for the rest. -/
theorem functionByteSelectsRequest : Obligations.FunctionByteSelectsRequest := by
  unfold Obligations.FunctionByteSelectsRequest
  refine fun c f => ⟨decode_ok_iff_accepted c f, fun req hdec => ?_⟩
  obtain ⟨-, -, -, rfl⟩ := (decode_ok_iff _ _ _).1 hdec
  clear hdec
  generalize f.getD 0 0 = addr, f.getD 1 0 = fn, payloadOf f = p
  rcases parseRequest_cases addr fn p with ⟨rfl, h⟩ | ⟨rfl, h⟩ | ⟨rfl, h⟩ | ⟨h3, h6, h10, h⟩ <;> rw [h]
  · simp
  · simp
  · simp
  · simpa [h3, h6, h10, Request.toInstr] using fun s => illegalFunction_onlyReplies s addr fn p

end Sys2Proof.Machine
end

section
/-! PROOFS. Every event and every step: the invariant of 10_state.md, totality, the configuration, and what each event does to
an idle engine. -/

namespace Sys2Proof

/-! The admissible configurations (R2, R4). -/

theorem blocksDisjoint_iff (bs : List Block) : blocksDisjoint bs = true ↔
    bs.Pairwise fun p q => p.start + p.length ≤ q.start ∨ q.start + q.length ≤ p.start := by
  induction bs with
  | nil => simp [blocksDisjoint]
  | cons b bs ih => simp [blocksDisjoint, Block.disjoint, ih]

theorem Config.wf_iff (c : Config) : c.wf = true ↔
    4 ≤ c.bufCap ∧ (∀ b ∈ c.blocks, 1 ≤ b.length ∧ b.start + b.length ≤ 64) ∧
      c.blocks.Pairwise fun p q => p.start + p.length ≤ q.start ∨ q.start + q.length ≤ p.start := by
  simp [Config.wf, Block.inStore, blocksDisjoint_iff]

/-- Blocks at two places of an admissible table share no cell (R4 c). -/
theorem Config.disjoint_of_wf {c : Config} (hwf : c.wf = true) {i j : Nat} (hij : i < j) {p q : Block}
    (hp : c.blocks[i]? = some p) (hq : c.blocks[j]? = some q) :
    p.start + p.length ≤ q.start ∨ q.start + q.length ≤ p.start := by
  obtain ⟨-, -, hdisjoint⟩ := c.wf_iff.1 hwf
  obtain ⟨hi, rfl⟩ := List.getElem?_eq_some_iff.1 hp
  obtain ⟨hj, rfl⟩ := List.getElem?_eq_some_iff.1 hq
  exact List.pairwise_iff_getElem.1 hdisjoint i j hi hj hij

end Sys2Proof

namespace Sys2Proof.Machine

/-! The configuration. -/

theorem take_cfg (s : State) (e : Event) : (s.take e).cfg = s.cfg := by
  cases e with
  | rxByte b => exact receive_cfg s b
  | onTimeout => exact timeout_cfg s
  | reset => rfl

theorem step_cfg {s t : State} (h : step s = .next t) : t.cfg = s.cfg := by
  obtain ⟨-, ⟨-, rfl⟩ | ⟨op, rest, -, rfl⟩ | ⟨e, rest, -, -, rfl⟩⟩ := step_next h
  · rfl
  · exact portbStep_cfg _ op
  · exact take_cfg _ e

theorem exec_cfg {i : Instr} {s t : State} (h : exec i s = .next t) : t.cfg = s.cfg := by
  rcases exec_next h with ⟨e, -, -, rfl⟩ | ⟨req, -, rfl⟩ | rfl
  · exact take_cfg s e
  · exact (serve_fields s req).1
  · rfl

/-- Settles O54: no event, PORTB access, request or reply writes a configuration register. -/
theorem configurationNeverChanges : Obligations.ConfigurationNeverChanges := by
  unfold Obligations.ConfigurationNeverChanges
  exact fun s t i h => h.elim step_cfg exec_cfg

/-! The invariant. -/

/-- Taking an input leaves all that the invariant speaks of. -/
theorem State.Inv.begin {s : State} (h : s.Inv) (rest : List Input) : (s.begin rest).Inv :=
  ⟨h.cfgWf, h.idle, h.widxLe, h.bufWf, h.bufLt, h.rxRange, h.txRange⟩

/-- An access of either agent leaves all that the invariant speaks of. -/
theorem State.Inv.of_storeOnly {s t : State} (h : s.Inv) (hst : s.storeOnly t) : t.Inv := by
  rw [hst]
  exact ⟨h.cfgWf, h.idle, h.widxLe, h.bufWf, h.bufLt, h.rxRange, h.txRange⟩

/-- With an empty buffer the clauses on the buffer hold by themselves. -/
theorem inv_of_empty {s : State} (hwf : s.cfg.wf = true) (hidle : s.dstate = .idle) (hwidx : s.widx = 0) (hbuf : s.buf = [])
    (hrx : s.rxCount < 2 ^ s.cfg.ctrWidth) (htx : s.txCount < 2 ^ s.cfg.ctrWidth) : s.Inv :=
  ⟨hwf, hidle, by omega, by simp [hbuf, Memory.wf], by simp [hbuf], hrx, htx⟩

theorem State.Inv.receive {s : State} (h : s.Inv) (b : Byte) : (s.receive b).Inv := by
  have hrx : satInc s.cfg.ctrWidth s.rxCount < 2 ^ s.cfg.ctrWidth := satInc_le _ _ h.rxRange
  rcases receive_cases s b with ⟨hroom, heq⟩ | ⟨-, heq⟩ <;> rw [heq]
  · refine ⟨h.cfgWf, h.idle, hroom, Memory.write_wf _ _ _ h.bufWf, fun c hc => ?_, hrx, h.txRange⟩
    rcases Memory.mem_write hc with rfl | hold
    · exact Nat.lt_succ_self s.widx
    · exact Nat.lt_succ_of_lt (h.bufLt c hold)
  · exact ⟨h.cfgWf, h.idle, h.widxLe, h.bufWf, h.bufLt, hrx, h.txRange⟩

/-- What ON_TIMEOUT leaves on every path, besides the configuration. -/
theorem timeout_fields (s : State) : s.timeout.dstate = .idle ∧ s.timeout.widx = 0 ∧ s.timeout.buf = [] ∧
    s.timeout.rxCount = s.rxCount ∧ s.timeout.inbox = s.inbox := by
  refine ⟨rfl, rfl, rfl, ?_⟩
  rcases timeout_cases s with ⟨r, -, h⟩ | ⟨req, -, h⟩ <;> rw [h]
  · exact ⟨rfl, rfl⟩
  · obtain ⟨-, hrx, hinbox, -⟩ := serve_fields { s with appended := false, dstate := .decoding, status := .ok } req
    exact ⟨hrx, hinbox⟩

theorem State.Inv.timeout {s : State} (h : s.Inv) : s.timeout.Inv := by
  obtain ⟨hidle, hwidx, hbuf, hrx, -⟩ := timeout_fields s
  have htx : s.timeout.txCount < 2 ^ s.cfg.ctrWidth := by
    rcases timeout_forwards s with ⟨-, hcount⟩ | ⟨-, reply, -, hcount⟩ <;> rw [hcount]
    · exact h.txRange
    · exact satInc_le _ _ h.txRange
  refine inv_of_empty ?_ hidle hwidx hbuf ?_ ?_ <;> rw [timeout_cfg]
  · exact h.cfgWf
  · rw [hrx]; exact h.rxRange
  · exact htx

theorem State.Inv.reinit {s : State} (h : s.Inv) : s.reinit.Inv :=
  inv_of_empty h.cfgWf rfl rfl rfl (Nat.two_pow_pos _) (Nat.two_pow_pos _)

theorem State.Inv.take {s : State} (h : s.Inv) (e : Event) : (s.take e).Inv := by
  cases e with
  | rxByte b => exact h.receive b
  | onTimeout => exact h.timeout
  | reset => exact h.reinit

/-- Settles O52: resting, a PORTB access and each event keep the invariant. -/
theorem stepKeepsInvariant : Obligations.StepKeepsInvariant := by
  unfold Obligations.StepKeepsInvariant
  intro s t hinv hstep
  obtain ⟨-, ⟨-, rfl⟩ | ⟨op, rest, -, rfl⟩ | ⟨e, rest, -, -, rfl⟩⟩ := step_next hstep
  · exact hinv.begin []
  · exact (hinv.begin rest).of_storeOnly (storeOnly_portbStep _ op)
  · exact (hinv.begin rest).take e

/-- An event that comes to an idle engine of an admissible configuration is taken. -/
theorem step_event {s : State} {e : Event} {rest : List Input} (hwf : s.cfg.wf = true) (hidle : s.dstate = .idle)
    (hinbox : s.inbox = .event e :: rest) : step s = .next ((s.begin rest).take e) := by
  rw [step, if_pos hwf, hinbox]
  exact (exec_event e _).trans (if_pos hidle)

theorem step_rest {s : State} (hwf : s.cfg.wf = true) (hinbox : s.inbox = []) : step s = .next (s.begin []) := by
  rw [step, if_pos hwf, hinbox]

/-- Settles O53: an admissible configuration is not refused, and an idle engine refuses no event. -/
theorem everyStepGoesOn : Obligations.EveryStepGoesOn := by
  unfold Obligations.EveryStepGoesOn
  intro s hinv
  have hnext : ∃ t, step s = .next t := by
    rcases hinbox : s.inbox with _ | ⟨e | op, rest⟩
    · exact ⟨_, step_rest hinv.cfgWf hinbox⟩
    · exact ⟨_, step_event hinv.cfgWf hinv.idle hinbox⟩
    · exact ⟨_, step_portb hinv.cfgWf hinbox⟩
  obtain ⟨t, hstep⟩ := hnext
  exact ⟨t, hstep, stepKeepsInvariant s t hinv hstep⟩

/-- Settles O51: the reference configuration is admissible, and the buffer is empty at reset. -/
theorem resetMeetsInvariant : Obligations.ResetMeetsInvariant :=
  inv_of_empty (by decide) rfl rfl rfl (by decide) (by decide)

/-! Reset and the shape of a step. -/

/-- Settles O1: each value as State.reset gives it. -/
theorem resetStateHoldsResetValues : Obligations.ResetStateHoldsResetValues :=
  ⟨rfl, Memory.read_nil, rfl, rfl, rfl, rfl, rfl, rfl⟩

/-- Settles O2: an idle engine takes RESET, which is one update of the state elements. -/
theorem resetEventRestoresResetValues : Obligations.ResetEventRestoresResetValues := by
  unfold Obligations.ResetEventRestoresResetValues
  intro s hidle
  exact ⟨s.reinit, (exec_event .reset s).trans (if_pos hidle), rfl, Memory.read_nil, rfl, rfl, rfl, rfl, rfl, rfl, rfl, rfl,
    rfl, rfl, rfl⟩

/-- Settles O3: the three kinds of inbox, each by its own rule. -/
theorem stepRunsNextInput : Obligations.StepRunsNextInput := by
  unfold Obligations.StepRunsNextInput
  refine fun s hwf => ⟨fun e rest hinbox => ?_, fun op rest => step_portb hwf, fun hrest => ?_⟩
  · rw [step, if_pos hwf, hinbox]
    rfl
  · rw [step_rest hwf hrest, State.begin, hrest]

/-- Settles O4: the event is taken, and a frame that decodes is served. -/
theorem stepRunsDecodedRequest : Obligations.StepRunsDecodedRequest := by
  unfold Obligations.StepRunsDecodedRequest
  intro s rest req hwf hidle hinbox hdec
  refine ⟨_, exec_request req _, ?_⟩
  rw [step, if_pos hwf, hinbox]
  exact served (s := s.begin rest) hidle hdec

/-- Settles O5: each of the three defects is the negation of one clause of the admissible configurations. -/
theorem illFormedConfigIsRefused : Obligations.IllFormedConfigIsRefused := by
  unfold Obligations.IllFormedConfigIsRefused
  intro s hbad
  rw [step, if_neg]
  intro hwf
  obtain ⟨hcap, hblocks, -⟩ := s.cfg.wf_iff.1 hwf
  rcases hbad with hcap' | ⟨b, hb, hbad⟩ | ⟨i, j, p, q, hij, hp, hq, hpq, hqp⟩
  · omega
  · have := hblocks b hb
    omega
  · have := Config.disjoint_of_wf hwf hij hp hq
    omega

/-- Settles O6: the event's instruction looks at the dispatcher's state first. -/
theorem overlappingEventIsRefused : Obligations.OverlappingEventIsRefused := by
  unfold Obligations.OverlappingEventIsRefused
  exact fun s e hbusy => (exec_event e s).trans (if_neg hbusy)

/-! The Frame Assembler. -/

/-- `t` differs from `s` in the frame buffer, the write index, the byte count and `appended` at most: what RX_BYTE does. -/
def State.assemblerOnly (s t : State) : Prop :=
  t = { s with buf := t.buf, widx := t.widx, rxCount := t.rxCount, appended := t.appended }

theorem assemblerOnly_receive (s : State) (b : Byte) : s.assemblerOnly (s.receive b) := by
  rcases receive_cases s b with ⟨-, h⟩ | ⟨-, h⟩ <;> rw [h] <;> rfl

@[simp] theorem receive_rxCount (s : State) (b : Byte) : (s.receive b).rxCount = satInc s.cfg.ctrWidth s.rxCount := by
  rcases receive_cases s b with ⟨-, h⟩ | ⟨-, h⟩ <;> rw [h]

/-- Settles O7: RX_BYTE stores below BUF_CAP and drops from there on, and counts either way. -/
theorem receiveByteStoresOrDrops : Obligations.ReceiveByteStoresOrDrops := by
  unfold Obligations.ReceiveByteStoresOrDrops
  intro s b hidle hbuf
  refine ⟨s.receive b, (exec_event (.rxByte b) s).trans (if_pos hidle), ?_, receive_rxCount s b, ?_⟩
  · rcases receive_cases s b with ⟨hroom, h⟩ | ⟨hfull, h⟩ <;> rw [h]
    · rw [if_pos hroom]
      exact ⟨fun i => Memory.read_write s.buf s.widx i b hbuf, rfl, rfl⟩
    · rw [if_neg (Nat.not_lt.2 hfull)]
      exact ⟨rfl, rfl, rfl⟩
  · rw [assemblerOnly_receive s b]

/-- Settles O9: a frame of fewer than four bytes decodes to the reject `empty` or `runt`. -/
theorem runtIsDiscarded : Obligations.RuntIsDiscarded := by
  unfold Obligations.RuntIsDiscarded
  intro s hidle hshort
  by_cases h0 : s.widx = 0
  · rw [discarded hidle ((decode_empty_iff _ _).2 (by simpa using h0)), if_pos h0]
    rfl
  · rw [discarded hidle ((decode_runt_iff _ _).2 (by rw [frame_length]; omega)), if_neg h0]
    rfl

/-- Settles O42: the address filter comes before the CRC check. -/
theorem otherAddressIsDiscarded : Obligations.OtherAddressIsDiscarded := by
  unfold Obligations.OtherAddressIsDiscarded
  intro s hidle hlen haddr
  have hdec : decode s.cfg.slaveAddr s.frame = .error .addressMismatch :=
    (decode_addressMismatch_iff _ _).2 ⟨by simpa using hlen, by rwa [frame_getD s 0 (by omega)]⟩
  exact discarded hidle hdec

/-- Settles O10: every path of ON_TIMEOUT ends in the return to the assembler. -/
theorem timeoutAlwaysResetsAssembler : Obligations.TimeoutAlwaysResetsAssembler := by
  unfold Obligations.TimeoutAlwaysResetsAssembler
  intro s hidle
  obtain ⟨hdstate, hwidx, hbuf, hrx, hinbox⟩ := timeout_fields s
  exact ⟨s.timeout, timeout_next hidle, hwidx, fun i => by rw [hbuf]; rfl, hdstate, timeout_cfg s, hrx, hinbox⟩

end Sys2Proof.Machine
end

section
/-! PROOFS. The requests and the replies, instruction by instruction: what each transmits, which cells it writes, and what it
leaves (43_function_codes.md, 45_response_builder.md). -/

namespace Sys2Proof

/-- The bytes of a list of values, by index. -/
theorem bytesOf_eq_flatMap_range (values : List Word) :
    bytesOf values = (List.range values.length).flatMap fun i => [hi (values.getD i 0), lo (values.getD i 0)] := by
  induction values with
  | nil => rfl
  | cons v values ih => simp [List.range_succ_eq_map, List.flatMap_map, ih]

/-- The fields of an even number of bytes, by index. -/
theorem wordsOf_eq_map_range {data : List Byte} {n : Nat} (h : data.length = 2 * n) :
    wordsOf data = (List.range n).map fun i => be16 (data.getD (2 * i) 0) (data.getD (2 * i + 1) 0) := by
  have hlen : (wordsOf data).length = n := by rw [wordsOf_length]; omega
  refine List.ext_getElem (by simpa using hlen) fun i hi _ => ?_
  have hfield := wordsOf_getElem? data i (by omega)
  rw [List.getElem?_eq_getElem hi] at hfield
  simpa using hfield

/-- A validated range lies in exactly one place of an admissible table (R4 c, R152). -/
theorem existsUnique_block_of_validRange {c : Config} (hwf : c.wf = true) {a q : Nat} (h : validRange c.blocks a q = true) :
    ∃! i : Nat, ∃ b : Block, c.blocks[i]? = some b ∧ b.start ≤ a ∧ a + q ≤ b.start + b.length := by
  obtain ⟨hq, -, b, hb, hstart, hend⟩ := (validRange_iff _ _ _).1 h
  obtain ⟨i, hi⟩ := List.mem_iff_getElem?.1 hb
  refine ⟨i, ⟨b, hi, hstart, hend⟩, fun j ⟨b', hj, hstart', hend'⟩ => ?_⟩
  by_contra hne
  rcases Nat.lt_or_gt_of_ne hne with hji | hij
  · have := Config.disjoint_of_wf hwf hji hj hi
    omega
  · have := Config.disjoint_of_wf hwf hij hi hj
    omega

end Sys2Proof

namespace Sys2Proof.Machine

/-- A reply built after the accesses of either agent, as one record update: sent frames and count are those of the state
before. -/
theorem forward_of_storeOnly {s u : State} (h : s.storeOnly u) (bytes : List Byte) :
    u.forward bytes = { u with dstate := .responding, sent := s.sent ++ [crcAppend bytes],
                               txCount := satInc s.cfg.ctrWidth s.txCount } := by
  rw [forward_eq, h.sent, h.cfg, h.txCount]

/-! The requests that raise, and the reply rows: one `forward` each. -/

/-- Settles O34: ILLEGAL_FUNCTION is one exception reply. -/
theorem unknownFunctionRaisesIllegalFunction : Obligations.UnknownFunctionRaisesIllegalFunction :=
  fun _ _ _ _ => rfl

/-- Settles O33: each of the three forms without fields is one exception reply with the status set before it. -/
theorem badLengthRaisesIllegalDataValue : Obligations.BadLengthRaisesIllegalDataValue := by
  unfold Obligations.BadLengthRaisesIllegalDataValue
  intro s addr payload req fn hmem
  simp only [List.mem_cons, Prod.mk.injEq, List.not_mem_nil, or_false] at hmem
  rcases hmem with ⟨rfl, rfl⟩ | ⟨rfl, rfl⟩ | ⟨rfl, rfl⟩ <;> rfl

/-- RHR with an invalid range (R130): IllegalDataAddress. -/
theorem serveRead_of_invalid {s : State} {a q : Word} (h : s.validRange a.toNat q.toNat = false) (addr : Byte)
    (ignored : List Byte) : s.serveRead addr (.fields a q ignored) = s.forward [addr, 0x83#8, 0x02#8] := by
  simp [State.serveRead, h, ExceptionCode.byte]

/-- WMR with a wrong byteCount (R132): IllegalDataValue, whatever the range. -/
theorem serveWriteMultiple_of_badCount (s : State) {q : Word} {byteCount : Byte} (h : byteCount.toNat ≠ 2 * q.toNat)
    (addr : Byte) (a : Word) (data : List Byte) :
    s.serveWriteMultiple addr (.fields a q byteCount data) = s.forward [addr, 0x90#8, 0x03#8] := by
  simp [State.serveWriteMultiple, byteCountMatches, h, ExceptionCode.byte]

/-- WMR with an invalid range (R132): IllegalDataAddress. -/
theorem serveWriteMultiple_of_invalid {s : State} {a q : Word} {byteCount : Byte} (hcount : byteCount.toNat = 2 * q.toNat)
    (h : s.validRange a.toNat q.toNat = false) (addr : Byte) (data : List Byte) :
    s.serveWriteMultiple addr (.fields a q byteCount data) = s.forward [addr, 0x90#8, 0x02#8] := by
  simp [State.serveWriteMultiple, byteCountMatches, hcount, h, ExceptionCode.byte]

/-- Settles O32: byteCount is compared before the range is looked at. -/
theorem byteCountMismatchRaisesIllegalDataValue : Obligations.ByteCountMismatchRaisesIllegalDataValue := by
  unfold Obligations.ByteCountMismatchRaisesIllegalDataValue
  exact fun s addr a q byteCount data hbad => congrArg Host.Outcome.next (serveWriteMultiple_of_badCount s hbad addr a data)

/-- Settles O22: the validator's conditions, the one block by disjointness, and the three procedures on a false result. -/
theorem validRangeLiesInOneBlock : Obligations.ValidRangeLiesInOneBlock := by
  unfold Obligations.ValidRangeLiesInOneBlock
  refine ⟨fun c a q => ⟨validRange_iff _ _ _, fun hwf => existsUnique_block_of_validRange hwf, fun hwf b hb _ hend => ?_⟩,
    fun s addr a second => ⟨fun hout ignored => ?_, fun hout ignored => ?_, fun hout byteCount data hcount => ?_⟩⟩
  · exact hend.trans (Config.block_end_le hwf hb)
  · exact onlyReplies_of_forward (congrArg Host.Outcome.next (serveRead_of_invalid hout addr ignored))
  · exact onlyReplies_of_forward (congrArg Host.Outcome.next (serveWrite_of_invalid hout addr second ignored))
  · exact onlyReplies_of_forward (congrArg Host.Outcome.next (serveWriteMultiple_of_invalid hcount hout addr data))

/-- Settles O37: each normal reply row is one `forward`; the values' bytes are listed by index. -/
theorem normalRepliesHaveTheirFormats : Obligations.NormalRepliesHaveTheirFormats := by
  unfold Obligations.NormalRepliesHaveTheirFormats
  intro s addr values a v
  refine ⟨?_, ?_, onlyReplies_of_forward rfl, onlyReplies_of_forward rfl⟩
  · rw [← bytesOf_eq_flatMap_range]
    exact onlyReplies_of_forward rfl
  · simp [body]
    omega

/-- `function | 0x80` keeps the low seven bits of the function code (R171). -/
theorem or_bit7_toNat : ∀ fn : Byte, (fn ||| 0x80#8).toNat = fn.toNat % 128 + 128 := by decide +kernel

/-- Settles O38: the exception row is one `forward` of three bytes. -/
theorem exceptionReplyHasItsFormat : Obligations.ExceptionReplyHasItsFormat := by
  unfold Obligations.ExceptionReplyHasItsFormat
  refine fun s addr fn code => ⟨onlyReplies_of_forward rfl, rfl, rfl, or_bit7_toNat fn, ?_, ?_⟩
  · cases code <;> rfl
  · exact (crcAppend_trailer [addr, fn ||| 0x80#8, code.byte]).symm

/-- Settles O25: the three cases of a point. -/
theorem portbActsInsideRequestsByGranularity : Obligations.PortbActsInsideRequestsByGranularity := by
  unfold Obligations.PortbActsInsideRequestsByGranularity
  refine fun s => ⟨fun hevents => portbPoint_of_quiet (.inl hevents), fun _ hnone => portbPoint_of_quiet (.inr hnone),
    fun ops rest hcells hsched => ?_⟩
  rw [State.portbPoint, hcells, hsched]
  rfl

/-! The requests with a valid range, whatever PORTB does. -/

/-- RHR with a valid range (R130). -/
theorem serveRead_of_valid {s : State} {a q : Word} (h : s.validRange a.toNat q.toNat = true) (addr : Byte)
    (ignored : List Byte) : s.serveRead addr (.fields a q ignored) =
      (s.readCells a.toNat q.toNat).2.forward (addr :: 0x03#8 :: readPayload (s.readCells a.toNat q.toNat).1) := by
  simp [State.serveRead, h]

/-- WMR with a matching byteCount and a valid range (R132). -/
theorem serveWriteMultiple_of_valid {s : State} {a q : Word} {byteCount : Byte} (hcount : byteCount.toNat = 2 * q.toNat)
    (h : s.validRange a.toNat q.toNat = true) (addr : Byte) (data : List Byte) :
    s.serveWriteMultiple addr (.fields a q byteCount data) =
      (s.writeCells a.toNat (wordsOf data)).forward [addr, 0x10#8, hi a, lo a, hi q, lo q] := by
  simp [State.serveWriteMultiple, byteCountMatches, hcount, h]

/-- Settles O26: the reads with a point before each, and the values' bytes in order. -/
theorem readRepliesWithCellsAtTheirReads : Obligations.ReadRepliesWithCellsAtTheirReads := by
  unfold Obligations.ReadRepliesWithCellsAtTheirReads
  intro s addr a q ignored hvalid
  refine congrArg Host.Outcome.next ((serveRead_of_valid hvalid addr ignored).trans ?_)
  rw [readCells_eq, forward_of_storeOnly (storeOnly_afterPoints _ s)]
  simp [readPayload, bytesOf, List.flatMap_map]

/-- Settles O28: one write between two points. -/
theorem writeSingleWritesBetweenPoints : Obligations.WriteSingleWritesBetweenPoints := by
  unfold Obligations.WriteSingleWritesBetweenPoints
  intro s addr a v ignored hvalid
  refine congrArg Host.Outcome.next ((serveWrite_of_valid hvalid addr v ignored).trans ?_)
  exact forward_of_storeOnly (storeOnly_writeCells [v] s a.toNat) _

/-- Settles O30: the writes are a fold over their indices, and value `i` is the field at bytes `2i` and `2i + 1`. -/
theorem writeMultipleWritesBetweenPoints : Obligations.WriteMultipleWritesBetweenPoints := by
  unfold Obligations.WriteMultipleWritesBetweenPoints
  intro s addr a q byteCount data hdata hcount hvalid
  have hlen : (wordsOf data).length = q.toNat := by rw [wordsOf_length]; omega
  have hfold : s.writeCells a.toNat (wordsOf data) = ((List.range q.toNat).foldl (fun u i =>
      u.portbPoint.memWrite (a.toNat + i) (be16 (data.getD (2 * i) 0) (data.getD (2 * i + 1) 0))) s).portbPoint := by
    rw [writeCells_fold, hlen]
    congr 1
    refine List.foldl_ext _ _ s fun u i hi => ?_
    have := List.mem_range.1 hi
    rw [words_getD data i (by omega)]
  refine congrArg Host.Outcome.next ((serveWriteMultiple_of_valid hcount hvalid addr data).trans ?_)
  rw [forward_of_storeOnly (storeOnly_writeCells _ s _), hfold]

/-! The same with PORTB quiet. -/

/-- Settles O27: with PORTB quiet the values are those of the state the request comes to. -/
theorem quietReadRepliesWithCurrentValues : Obligations.QuietReadRepliesWithCurrentValues := by
  unfold Obligations.QuietReadRepliesWithCurrentValues
  intro s addr a q ignored hquiet hvalid
  refine congrArg Host.Outcome.next ((serveRead_of_valid hvalid addr ignored).trans ?_)
  rw [readCells_of_quiet hquiet, forward_eq]
  simp [readPayload]

/-- A write with its reply, PORTB quiet: besides the reply only the store changes. -/
theorem forward_writeCells_of_quiet {s : State} (hquiet : s.portbQuiet) (a : Nat) (values : List Word) (bytes : List Byte) :
    { (s.writeCells a values).forward bytes with x := s.x } = s.forward bytes := by
  rw [(writeCells_of_quiet values hquiet a 0).1]
  rfl

/-- Settles O29: a run of one cell. -/
theorem quietWriteSingleChangesOneCell : Obligations.QuietWriteSingleChangesOneCell := by
  unfold Obligations.QuietWriteSingleChangesOneCell
  intro s addr a v ignored hquiet hvalid
  refine ⟨_, congrArg Host.Outcome.next (serveWrite_of_valid hvalid addr v ignored), fun b => ?_,
    forward_writeCells_of_quiet hquiet _ _ _⟩
  have hcell : a.toNat + 0 < 64 := lt_of_validRange hvalid Nat.one_pos
  refine ((writeCells_of_quiet [v] hquiet a.toNat b).2).trans ?_
  by_cases hb : b = a.toNat
  · rw [if_pos (by simp; omega), if_pos hb, hb]
    simp
  · rw [if_neg (by simp; omega), if_neg hb]

/-- Settles O31: the run of cells takes the fields of the data, by index. -/
theorem quietWriteMultipleChangesItsRun : Obligations.QuietWriteMultipleChangesItsRun := by
  unfold Obligations.QuietWriteMultipleChangesItsRun
  intro s addr a q byteCount data hquiet hdata hcount hvalid
  refine ⟨_, congrArg Host.Outcome.next (serveWriteMultiple_of_valid hcount hvalid addr data), fun b => ?_,
    forward_writeCells_of_quiet hquiet _ _ _⟩
  have hlen : (wordsOf data).length = q.toNat := by rw [wordsOf_length]; omega
  refine ((writeCells_of_quiet (wordsOf data) hquiet a.toNat b).2).trans ?_
  by_cases hb : a.toNat ≤ b ∧ b < a.toNat + q.toNat
  · have hcell : a.toNat + (b - a.toNat) < 64 := lt_of_validRange hvalid (by omega)
    rw [if_pos (by omega), if_pos hb, words_getD data _ (by omega)]
  · rw [if_neg (by omega), if_neg hb]

/-! All requests. -/

/-- Settles O35: of all that a request can do, only the exception sets bit 7 of the reply's function byte. -/
theorem exceptionReplyLeavesStoreUnmodified : Obligations.ExceptionReplyLeavesStoreUnmodified := by
  unfold Obligations.ExceptionReplyLeavesStoreUnmodified
  intro s t req reply hexec hsent hbit
  obtain rfl : s.serve req = t := by simpa using hexec
  obtain ⟨addr, fn, p, hserve, hcase⟩ := serve_cases s req
  obtain rfl : crcAppend (addr :: fn :: p) = reply := by simpa [hserve] using hsent
  rw [crcAppend_getD _ 1 (by simp)] at hbit
  replace hbit : fn.getLsbD 7 = true := hbit
  rcases hcase with ⟨-, hp, hx⟩ | ⟨rfl, -⟩ | ⟨rfl, -⟩ | ⟨rfl, -⟩
  · exact ⟨hx, by simp [hp]⟩
  · exact absurd hbit (by decide)
  · exact absurd hbit (by decide)
  · exact absurd hbit (by decide)

/-- A request leaves the status its dispatcher set, or FrameError (R117). -/
theorem serve_status (s : State) (req : Request) :
    (s.serve req).status = s.status ∨ (s.serve req).status = .frameError := by
  obtain ⟨-, -, hkept | hframe⟩ := serve_alike (s := s) (t := s) ⟨rfl, rfl, rfl⟩ req
  · exact .inl hkept.1
  · exact .inr hframe.1

/-- Settles O36: a request is answered once, and the answer touches no element of the assembler. -/
theorem everyRequestIsAnsweredOnce : Obligations.EveryRequestIsAnsweredOnce := by
  unfold Obligations.EveryRequestIsAnsweredOnce
  intro s req
  obtain ⟨hcfg, hrx, hinbox, hbuf, hwidx, happended, hdstate, htx, bytes, hsent⟩ := serve_fields s req
  exact ⟨s.serve req, crcAppend bytes, exec_request req s, hsent, hdstate, htx, serve_status s req, hcfg, hbuf, hwidx, hrx,
    happended, hinbox⟩

/-- A request that the function decode gives is answered with its address and its function byte, bit 7 set or not (R138). -/
theorem serve_parseRequest_sent (s : State) (addr fn : Byte) (p : List Byte) :
    ∃ fn' p', (s.serve (parseRequest addr fn p)).sent = s.sent ++ [crcAppend (addr :: fn' :: p')] ∧
      (fn' = fn ∨ fn' = fn ||| 0x80#8) := by
  rcases parseRequest_cases addr fn p with ⟨rfl, h⟩ | ⟨rfl, h⟩ | ⟨rfl, h⟩ | ⟨-, -, -, h⟩ <;> rw [h]
  · rcases serveRead_cases s addr (parsePair p) with ⟨_, -, hs⟩ | ⟨_, _, _, -, -, hs⟩ | ⟨_, _, _, -, -, hs⟩ <;>
      simp only [State.serve, hs]
    · exact ⟨_, _, rfl, .inr rfl⟩
    · exact ⟨_, _, rfl, .inr rfl⟩
    · exact ⟨_, _, by rw [forward_sent, readCells_sent], .inl rfl⟩
  · rcases serveWrite_cases s addr (parsePair p) with ⟨_, -, hs⟩ | ⟨_, _, _, -, -, hs⟩ | ⟨_, _, _, -, -, hs⟩ <;>
      simp only [State.serve, hs]
    · exact ⟨_, _, rfl, .inr rfl⟩
    · exact ⟨_, _, rfl, .inr rfl⟩
    · exact ⟨_, _, by rw [forward_sent, writeCells_sent], .inl rfl⟩
  · rcases serveWriteMultiple_cases s addr (parseMulti p) with ⟨_, -, hs⟩ | ⟨_, _, _, _, -, -, hs⟩ |
      ⟨_, _, _, _, -, -, -, hs⟩ | ⟨_, _, _, _, -, -, -, hs⟩ <;> simp only [State.serve, hs]
    · exact ⟨_, _, rfl, .inr rfl⟩
    · exact ⟨_, _, rfl, .inr rfl⟩
    · exact ⟨_, _, rfl, .inr rfl⟩
    · exact ⟨_, _, by rw [forward_sent, writeCells_sent], .inl rfl⟩
  · exact ⟨_, _, rfl, .inr rfl⟩

/-- Settles O41: the reply is closed by CRC_APPEND and begins with the frame's address and function byte. -/
theorem replyIsAuthenticAndAddressed : Obligations.ReplyIsAuthenticAndAddressed := by
  unfold Obligations.ReplyIsAuthenticAndAddressed
  intro s t req reply hdec hexec hsent
  obtain rfl : s.serve req = t := by simpa using hexec
  obtain ⟨-, haddr, -, rfl⟩ := (decode_ok_iff _ _ _).1 hdec
  obtain ⟨fn, p, hserve, hfn⟩ := serve_parseRequest_sent s (s.frame.getD 0 0) (s.frame.getD 1 0) (payloadOf s.frame)
  obtain rfl : crcAppend (s.frame.getD 0 0 :: fn :: p) = reply := by
    rw [hserve] at hsent
    simpa using hsent
  rw [crcAppend_getD _ 0 (by simp), crcAppend_getD _ 1 (by simp)]
  exact ⟨crcOk_crcAppend _, haddr, hfn⟩

end Sys2Proof.Machine
end

section
/-! PROOFS. Whole paths: a request delivered byte by byte (40_frame_assembler.md), what an outcome depends on
(42_frame_dispatcher.md section 9), and which cells a request writes with PORTB quiet (44_register_store.md). -/

namespace Sys2Proof.Machine

/-! What ON_TIMEOUT does by what the frame decodes to. -/

/-- The state in which the dispatcher enters a request's procedure at ON_TIMEOUT (R110). -/
def State.entered (s : State) : State := { s with appended := false, dstate := .decoding, status := .ok }

theorem timeout_of_decode {s : State} {req : Request} (h : decode s.cfg.slaveAddr s.frame = .ok req) :
    s.timeout = (s.entered.serve req).returnToIdle := by
  rcases timeout_cases s with ⟨r, hdec, -⟩ | ⟨req', hdec, ht⟩ <;> cases h.symm.trans hdec
  exact ht

theorem timeout_of_reject {s : State} {r : Reject} (h : decode s.cfg.slaveAddr s.frame = .error r) :
    s.timeout = { s with appended := false, status := discardStatus r }.returnToIdle := by
  rcases timeout_cases s with ⟨r', hdec, ht⟩ | ⟨req, hdec, -⟩ <;> cases h.symm.trans hdec
  exact ht

/-! A request delivered byte by byte. -/

theorem State.assemblerOnly.trans {s t u : State} (h : s.assemblerOnly t) (k : t.assemblerOnly u) : s.assemblerOnly u := by
  unfold State.assemblerOnly at *
  rw [k, h]

theorem assemblerOnly_foldl_receive (bytes : List Byte) : ∀ s : State, s.assemblerOnly (bytes.foldl State.receive s) := by
  induction bytes with
  | nil => exact fun s => rfl
  | cons b bytes ih => exact fun s => (assemblerOnly_receive s b).trans (ih _)

/-- Below its limit the byte count goes up by the number of bytes. -/
theorem foldl_receive_rxCount (bytes : List Byte) : ∀ s : State, s.rxCount + bytes.length < 2 ^ s.cfg.ctrWidth →
    (bytes.foldl State.receive s).rxCount = s.rxCount + bytes.length := by
  induction bytes with
  | nil => exact fun s _ => rfl
  | cons b bytes ih =>
    intro s hlimit
    rw [List.length_cons] at hlimit ⊢
    have hrx : (s.receive b).rxCount = s.rxCount + 1 := by rw [receive_rxCount, satInc, if_pos (by omega)]
    rw [List.foldl_cons, ih (s.receive b) (by rw [hrx, receive_cfg]; omega), hrx]
    omega

/-- A request's procedure neither looks at the buffer, the write index and the byte count nor touches them. -/
theorem serve_with_assembler (s : State) (buf : Memory) (widx rx : Nat) (req : Request) :
    { s with buf := buf, widx := widx, rxCount := rx }.serve req =
      { s.serve req with buf := buf, widx := widx, rxCount := rx } := by
  generalize ht : ({ s with buf := buf, widx := widx, rxCount := rx } : State) = t
  have halike : s.alike t := by subst ht; exact ⟨rfl, rfl, rfl⟩
  obtain ⟨⟨⟨-, hx, hsched⟩, seen, hseen, hseen'⟩, ⟨bytes, hs, ht'⟩, hstatus⟩ := serve_alike halike req
  have hst : (t.serve req).status = (s.serve req).status := by
    rcases hstatus with ⟨h, h'⟩ | ⟨h, h'⟩
    · rw [h, h', ← ht]
    · rw [h, h']
  rw [hs, ht', ← hx, ← hsched, hseen, hseen', hst, ← ht]

/-- Settles O46: by induction over its bytes the frame in the buffer is the request's, which decodes to the request; what the
bytes changed besides is neither read nor written by the request's procedure. -/
theorem deliveredRequestIsServed : Obligations.DeliveredRequestIsServed := by
  unfold Obligations.DeliveredRequestIsServed
  intro s req hidle hbuf hwidx hwf
  have hreceived := assemblerOnly_foldl_receive (encode req.toInstr) s
  have hrx := foldl_receive_rxCount (encode req.toInstr) s
  have hframe : ((encode req.toInstr).foldl State.receive s).frame = encode req.toInstr := by
    have hempty : s.frame = [] := List.length_eq_zero_iff.1 (by rw [frame_length, hwidx])
    rw [foldl_receive_frame _ hbuf, hempty, hwidx, List.nil_append, Nat.sub_zero, List.take_of_length_le (encode_length_le hwf)]
  have hevents := runEvents_rxBytes (encode req.toInstr) hidle
  generalize (encode req.toInstr).foldl State.receive s = u at hreceived hrx hframe hevents
  have hidle' : u.dstate = .idle := by rw [hreceived]; exact hidle
  have hcfg : u.cfg = s.cfg := by rw [hreceived]
  have hdec : decode u.cfg.slaveAddr u.frame = .ok req := by
    rw [hcfg, hframe]
    exact encodedRequestDecodesToItself s.cfg req hwf
  have hentered : u.entered = { s.entered with buf := u.buf, widx := u.widx, rxCount := u.rxCount } := by
    rw [hreceived]
    rfl
  refine ⟨_, u.rxCount, exec_request req s.entered, ?_, hrx⟩
  calc runEvents ((encode req.toInstr).map Event.rxByte ++ [.onTimeout]) s
      = runEvents [.onTimeout] u := runEvents_append _ _ hevents
    _ = .next u.timeout := by rw [runEvents, Event.toInstr, timeout_next hidle']; rfl
    _ = .next (u.entered.serve req).returnToIdle := by rw [timeout_of_decode hdec]
    _ = _ := by rw [hentered, serve_with_assembler]; rfl

/-! What an outcome depends on. -/

/-- Settles O47: both states decode the same frame; a discard records the same status, and two states alike are served alike. -/
theorem outcomeDependsOnFrameAndStoreOnly : Obligations.OutcomeDependsOnFrameAndStoreOnly := by
  unfold Obligations.OutcomeDependsOnFrameAndStoreOnly
  intro s s' hidle hidle' hcfg hframe hx hsched
  have haccepted := decode_ok_iff_accepted s.cfg s.frame
  cases hdec : decode s.cfg.slaveAddr s.frame with
  | error r =>
    have ht := timeout_of_reject hdec
    have ht' := timeout_of_reject (s := s') (r := r) (by rw [← hcfg, ← hframe, hdec])
    have hrejected : ¬ accepted s.cfg s.frame := by simp [← haccepted, hdec]
    exact ⟨s.timeout, s'.timeout, [], timeout_next hidle, timeout_next hidle', by simp [ht], by simp [ht'],
      iff_of_false (by simp) hrejected, by simp, by simpa [ht, ht'] using hx, by simp [ht, ht']⟩
  | ok req =>
    have ht := timeout_of_decode hdec
    have ht' := timeout_of_decode (s := s') (req := req) (by rw [← hcfg, ← hframe, hdec])
    obtain ⟨⟨⟨-, hx', -⟩, -⟩, ⟨bytes, hs, hs'⟩, hstatus⟩ :=
      serve_alike (s := s.entered) (t := s'.entered) ⟨hcfg, hx, hsched⟩ req
    refine ⟨s.timeout, s'.timeout, [crcAppend bytes], timeout_next hidle, timeout_next hidle', by rw [ht, hs]; rfl,
      by rw [ht', hs']; rfl, iff_of_true rfl (haccepted.1 ⟨req, hdec⟩), Nat.le_refl 1, by rw [ht, ht']; exact hx', ?_⟩
    rw [ht, ht', returnToIdle_status, returnToIdle_status]
    rcases hstatus with ⟨h, h'⟩ | ⟨h, h'⟩
    · rw [h, h']
      rfl
    · rw [h, h']

end Sys2Proof.Machine
end

section
/-! PROOFS. Which cells the engine writes with PORTB quiet: the run of cells that a request is granted, and no other
(43_function_codes.md sections 1 to 6, 44_register_store.md sections 2 and 4). -/

namespace Sys2Proof

/-- The run of cells that a request writes under `c`, as first address and values: none unless it is a write request whose
checks all pass (R131, R132). -/
def Config.grantedWrite (c : Config) : Request → Nat × List Word
  | .writeSingleRegister _ (.fields a v _) => if validRange c.blocks a.toNat 1 then (a.toNat, [v]) else (0, [])
  | .writeMultipleRegisters _ (.fields a q byteCount data) =>
      if byteCount.toNat = 2 * q.toNat ∧ validRange c.blocks a.toNat q.toNat then (a.toNat, wordsOf data) else (0, [])
  | _ => (0, [])

/-- The granted run of a request that is well formed, for whatever buffer, lies inside one block. -/
theorem validRange_of_grantedWrite {c d : Config} {req : Request} (hwf : req.wf d = true)
    (h : (c.grantedWrite req).2 ≠ []) :
    validRange c.blocks (c.grantedWrite req).1 (c.grantedWrite req).2.length = true := by
  revert h
  unfold Config.grantedWrite
  split
  · split
    · next hvalid => exact fun _ => hvalid
    · exact fun h => absurd rfl h
  · next addr a q byteCount data =>
    split
    · next hchecks =>
      have hdata : data.length = byteCount.toNat := by
        simpa [MultiOperands.wf] using (Bool.and_eq_true_iff.1 hwf).2
      have hlen : (wordsOf data).length = q.toNat := by rw [wordsOf_length]; omega
      exact fun _ => hlen ▸ hchecks.2
    · exact fun h => absurd rfl h
  · exact fun h => absurd rfl h

/-- What a frame decodes to is well formed for a buffer of its length. -/
theorem wf_of_decode {c : Config} {f : Frame} {req : Request} (h : decode c.slaveAddr f = .ok req) :
    req.wf { c with bufCap := f.length } = true :=
  (decodedFrameEncodesToItself { c with bufCap := f.length } f req h).2 (Nat.le_refl _)

end Sys2Proof

namespace Sys2Proof.Machine

/-- A request under configuration `c` either is granted no write, and with PORTB quiet then only replies, or it is the writes
of its granted run and a reply that no cell is read for. -/
theorem serve_grantedWrite (c : Config) (req : Request) :
    (c.grantedWrite req = (0, []) ∧ ∀ s : State, s.cfg = c → s.portbQuiet →
      ∃ st bytes, s.serve req = { s with status := st }.forward bytes) ∨
    ∃ bytes, ∀ s : State, s.cfg = c →
      s.serve req = (s.writeCells (c.grantedWrite req).1 (c.grantedWrite req).2).forward bytes := by
  cases req with
  | readHoldingRegisters addr op =>
    refine .inl ⟨rfl, fun s _ hquiet => ?_⟩
    rcases serveRead_cases s addr op with ⟨_, -, h⟩ | ⟨_, _, _, -, -, h⟩ | ⟨a, q, _, -, -, h⟩ <;> simp only [State.serve, h]
    · exact ⟨.frameError, _, rfl⟩
    · exact ⟨s.status, _, rfl⟩
    · rw [readCells_of_quiet hquiet]
      exact ⟨s.status, _, rfl⟩
  | writeSingleRegister addr op =>
    cases op with
    | short p => exact .inl ⟨rfl, fun s _ _ => ⟨.frameError, _, rfl⟩⟩
    | fields a v ignored =>
      by_cases hvalid : validRange c.blocks a.toNat 1 = true
      · refine .inr ⟨[addr, 0x06#8, hi a, lo a, hi v, lo v], fun s hs => ?_⟩
        subst hs
        simp only [State.serve, Config.grantedWrite, if_pos hvalid]
        exact serveWrite_of_valid hvalid addr v ignored
      · refine .inl ⟨if_neg hvalid, fun s hs _ => ?_⟩
        subst hs
        exact ⟨s.status, _, serveWrite_of_invalid (Bool.eq_false_iff.2 hvalid) addr v ignored⟩
  | writeMultipleRegisters addr op =>
    cases op with
    | badLength p => exact .inl ⟨rfl, fun s _ _ => ⟨.frameError, _, rfl⟩⟩
    | fields a q byteCount data =>
      by_cases hchecks : byteCount.toNat = 2 * q.toNat ∧ validRange c.blocks a.toNat q.toNat = true
      · refine .inr ⟨[addr, 0x10#8, hi a, lo a, hi q, lo q], fun s hs => ?_⟩
        subst hs
        simp only [State.serve, Config.grantedWrite, if_pos hchecks]
        exact serveWriteMultiple_of_valid hchecks.1 hchecks.2 addr data
      · refine .inl ⟨if_neg hchecks, fun s hs _ => ⟨s.status, ?_⟩⟩
        subst hs
        by_cases hcount : byteCount.toNat = 2 * q.toNat
        · have hout : s.validRange a.toNat q.toNat = false := Bool.eq_false_iff.2 fun hvalid => hchecks ⟨hcount, hvalid⟩
          exact ⟨_, serveWriteMultiple_of_invalid hcount hout addr data⟩
        · exact ⟨_, serveWriteMultiple_of_badCount s hcount addr a data⟩
  | illegalFunction addr fn p => exact .inl ⟨rfl, fun s _ _ => ⟨s.status, _, rfl⟩⟩

/-- With PORTB quiet a request leaves the store as the writes of its granted run leave it. -/
theorem serve_x_of_quiet {s : State} (hquiet : s.portbQuiet) (req : Request) :
    (s.serve req).x = (s.writeCells (s.cfg.grantedWrite req).1 (s.cfg.grantedWrite req).2).x := by
  rcases serve_grantedWrite s.cfg req with ⟨hnone, hs⟩ | ⟨bytes, hs⟩
  · obtain ⟨st, bytes, h⟩ := hs s rfl hquiet
    rw [h, hnone, State.writeCells, portbPoint_of_quiet hquiet]
    rfl
  · rw [hs s rfl, forward_x]

/-- With PORTB quiet a cell reads, after a request, as its value in the granted run, and as before outside it. -/
theorem serve_memRead_of_quiet {s : State} (hquiet : s.portbQuiet) (req : Request) (b : Nat) :
    (s.serve req).memRead b =
      if (s.cfg.grantedWrite req).1 ≤ b ∧ b < (s.cfg.grantedWrite req).1 + (s.cfg.grantedWrite req).2.length ∧ b < 64 then
        (s.cfg.grantedWrite req).2.getD (b - (s.cfg.grantedWrite req).1) 0
      else s.memRead b :=
  (memRead_congr (serve_x_of_quiet hquiet req) b).trans (writeCells_of_quiet _ hquiet _ b).2

/-- With PORTB quiet a well-formed request changes no cell that is in no block. -/
theorem serve_memRead_outside_blocks {s : State} (hquiet : s.portbQuiet) {d : Config} {req : Request}
    (hwf : req.wf d = true) {a : Nat} (hout : ∀ b ∈ s.cfg.blocks, ¬ (b.start ≤ a ∧ a < b.start + b.length)) :
    (s.serve req).memRead a = s.memRead a := by
  rw [serve_memRead_of_quiet hquiet, if_neg]
  rintro ⟨hle, hlt, -⟩
  have hsome : (s.cfg.grantedWrite req).2 ≠ [] := by
    rw [← List.length_pos_iff]
    omega
  obtain ⟨-, -, b, hb, hstart, hend⟩ := (validRange_iff _ _ _).1 (validRange_of_grantedWrite hwf hsome)
  exact hout b hb ⟨hstart.trans hle, hlt.trans_le hend⟩

/-- Settles O57: RX_BYTE and a discard touch no cell, and the run that a request is granted lies inside one block. -/
theorem cellsOutsideBlocksAreNeverWritten : Obligations.CellsOutsideBlocksAreNeverWritten := by
  unfold Obligations.CellsOutsideBlocksAreNeverWritten
  intro s t e rest a hquiet hinbox hnoreset hstep hout
  obtain ⟨-, ⟨hnone, -⟩ | ⟨op, rest', hportb, -⟩ | ⟨e', rest', hevent, -, rfl⟩⟩ := step_next hstep
  · cases hinbox.symm.trans hnone
  · cases hinbox.symm.trans hportb
  · cases hinbox.symm.trans hevent
    cases e with
    | reset => exact absurd rfl hnoreset
    | rxByte b =>
      refine memRead_congr ?_ a
      show ((s.begin rest).receive b).x = s.x
      rw [assemblerOnly_receive (s.begin rest) b]
      rfl
    | onTimeout =>
      show (s.begin rest).timeout.memRead a = s.memRead a
      cases hdec : decode (s.begin rest).cfg.slaveAddr (s.begin rest).frame with
      | error r =>
        rw [timeout_of_reject hdec]
        rfl
      | ok req =>
        rw [timeout_of_decode hdec]
        exact serve_memRead_outside_blocks (s := (s.begin rest).entered) hquiet (wf_of_decode hdec) hout

/-! A request repeated, and a read after a write. -/

theorem quiet_writeCells {s : State} (h : s.portbQuiet) (a : Nat) (values : List Word) : (s.writeCells a values).portbQuiet := by
  rw [(writeCells_of_quiet values h a 0).1]
  exact h

/-- Writing a run of cells again changes nothing. -/
theorem writeCells_x_of_written {s t : State} (hs : s.portbQuiet) (ht : t.portbQuiet) {a : Nat} {values : List Word}
    (h : t.x = (s.writeCells a values).x) : (t.writeCells a values).x = t.x := by
  refine x_ext fun b => ?_
  rw [(writeCells_of_quiet values ht a b).2, memRead_congr h, (writeCells_of_quiet values hs a b).2]
  split <;> rfl

/-- Settles O49: a request that is granted no write finds the same store again, and one that is granted a write writes the
same run and needs no cell for its reply. -/
theorem repeatedRequestGivesTheSameResult : Obligations.RepeatedRequestGivesTheSameResult := by
  unfold Obligations.RepeatedRequestGivesTheSameResult
  intro s t u req hquiet _ hexec hexec'
  obtain rfl : s.serve req = t := by simpa using hexec
  obtain rfl : (s.serve req).serve req = u := by simpa using hexec'
  rcases serve_grantedWrite s.cfg req with ⟨-, hserve⟩ | ⟨bytes, hserve⟩
  · obtain ⟨st, bytes, h⟩ := hserve s rfl hquiet
    have hcfg : (s.serve req).cfg = s.cfg := by rw [h]; rfl
    have hquiet' : (s.serve req).portbQuiet := by rw [h]; exact hquiet
    obtain ⟨st', bytes', h'⟩ := hserve (s.serve req) hcfg hquiet'
    obtain ⟨-, ⟨reply, hs, ht⟩, -⟩ := serve_alike (s := s) (t := s.serve req) (by rw [h]; exact ⟨rfl, rfl, rfl⟩) req
    exact ⟨by rw [h']; rfl, crcAppend reply, by rw [hs], by rw [ht]⟩
  · have h := hserve s rfl
    have hcfg : (s.serve req).cfg = s.cfg := by rw [h]; simp
    have hquiet' : (s.serve req).portbQuiet := by rw [h]; exact quiet_writeCells hquiet _ _
    have h' := hserve (s.serve req) hcfg
    refine ⟨?_, crcAppend bytes, by rw [h]; simp, by rw [h']; simp⟩
    rw [h', forward_x]
    exact writeCells_x_of_written hquiet hquiet' (by rw [h]; rfl)

/-- Settles O50: the cells read are the run written, and their bytes are the data. -/
theorem readReturnsWhatWasWritten : Obligations.ReadReturnsWhatWasWritten := by
  unfold Obligations.ReadReturnsWhatWasWritten
  intro s t addr a q byteCount data ignored hquiet hdata hcount hvalid hexec
  obtain ⟨t', hexec', hread, hframe⟩ := quietWriteMultipleChangesItsRun s addr a q byteCount data hquiet hdata hcount hvalid
  obtain rfl : t' = t := by simpa [hexec'] using hexec
  have hcfg : t'.cfg = s.cfg := exec_cfg hexec
  have hsched : t'.portbSchedule = s.portbSchedule := by simpa using congrArg State.portbSchedule hframe
  have hquiet' : t'.portbQuiet := by rwa [State.portbQuiet, hcfg, hsched]
  have hvalues : (List.range q.toNat).map (fun i => t'.memRead (a.toNat + i)) = wordsOf data := by
    rw [wordsOf_eq_map_range (hdata.trans hcount)]
    refine List.map_congr_left fun i hi => ?_
    have := List.mem_range.1 hi
    rw [hread, if_pos (by omega), Nat.add_sub_cancel_left]
  refine ⟨_, quietReadRepliesWithCurrentValues t' addr a q ignored hquiet' (by rwa [State.validRange, hcfg]), ?_, rfl⟩
  rw [hvalues, bytesOf_wordsOf data q.toNat (hdata.trans hcount), ← hcount, BitVec.ofNat_toNat]
  simp

end Sys2Proof.Machine
end

section
/-! PROOFS. The write requests read off the bytes of an accepted frame (R61, R131, R132). -/

namespace Sys2Proof.Machine

/-- The run that a frame with function 0x06 is granted, from the bytes of the buffer at their offsets. -/
theorem grantedWrite_single_of_frame {s : State} (h : 8 ≤ s.widx) (addr : Byte) :
    s.cfg.grantedWrite (parseRequest addr 0x06#8 (payloadOf s.frame)) =
      if validRange s.cfg.blocks ((s.buf.read 2).toNat * 256 + (s.buf.read 3).toNat) 1 then
        ((s.buf.read 2).toNat * 256 + (s.buf.read 3).toNat, [be16 (s.buf.read 4) (s.buf.read 5)]) else (0, []) := by
  rw [parseRequest, if_neg (by decide), if_pos rfl, pair_of_frame s.frame (by simpa using h), Config.grantedWrite,
    frame_getD s 2 (by omega), frame_getD s 3 (by omega), frame_getD s 4 (by omega), frame_getD s 5 (by omega), be16_toNat]

/-- The run that a frame with function 0x10 is granted, from the bytes of the buffer at their offsets. -/
theorem grantedWrite_multiple_of_frame {s : State} (h : s.widx = 9 + (s.buf.read 6).toNat) (addr : Byte) :
    s.cfg.grantedWrite (parseRequest addr 0x10#8 (payloadOf s.frame)) =
      if (s.buf.read 6).toNat = 2 * ((s.buf.read 4).toNat * 256 + (s.buf.read 5).toNat) ∧
          validRange s.cfg.blocks ((s.buf.read 2).toNat * 256 + (s.buf.read 3).toNat)
            ((s.buf.read 4).toNat * 256 + (s.buf.read 5).toNat) then
        ((s.buf.read 2).toNat * 256 + (s.buf.read 3).toNat, wordsOf ((s.frame.drop 7).take (s.frame.length - 9)))
      else (0, []) := by
  have hlen : s.frame.length = 9 + (s.frame.getD 6 0).toNat := by rw [frame_length, frame_getD s 6 (by omega), h]
  rw [parseRequest, if_neg (by decide), if_neg (by decide), if_pos rfl, multi_of_frame s.frame hlen, Config.grantedWrite,
    frame_getD s 2 (by omega), frame_getD s 3 (by omega), frame_getD s 4 (by omega), frame_getD s 5 (by omega),
    frame_getD s 6 (by omega), be16_toNat, be16_toNat]

/-- A frame of a length that its function does not accept is granted no write, and neither is a function that writes none. -/
theorem length_of_grantedWrite {s : State} {addr fn : Byte} (h4 : 4 ≤ s.widx)
    (h : (s.cfg.grantedWrite (parseRequest addr fn (payloadOf s.frame))).2 ≠ []) :
    (fn = 0x06#8 ∧ 8 ≤ s.widx) ∨ (fn = 0x10#8 ∧ s.widx = 9 + (s.buf.read 6).toNat) := by
  rcases parseRequest_cases addr fn (payloadOf s.frame) with ⟨rfl, hreq⟩ | ⟨rfl, hreq⟩ | ⟨rfl, hreq⟩ | ⟨-, -, -, hreq⟩
  · exact absurd (by rw [hreq]; rfl) h
  · refine .inl ⟨rfl, Nat.le_of_not_lt fun hshort => h ?_⟩
    rw [hreq, parsePair_short (by rw [payload_length, frame_length]; omega)]
    rfl
  · refine .inr ⟨rfl, by_contra fun hlen => h ?_⟩
    have hbad : badLength 0x10#8 s.frame := (badLength_frame_iff s _).2 (.inr hlen)
    rw [hreq, multi_bad_of_frame s.frame (by simpa using h4) hbad]
    rfl
  · exact absurd (by rw [hreq]; rfl) h

/-- With PORTB quiet ON_TIMEOUT writes the run that an accepted frame is granted, and no cell outside it. -/
theorem timeout_memRead_of_accepted {s : State} (hquiet : s.portbQuiet) (h : accepted s.cfg s.frame)
    {run : Nat × List Word} (hrun : s.cfg.grantedWrite (parseRequest (s.buf.read 0) (s.buf.read 1) (payloadOf s.frame)) = run)
    (c : Nat) : s.timeout.memRead c =
      if run.1 ≤ c ∧ c < run.1 + run.2.length ∧ c < 64 then run.2.getD (c - run.1) 0 else s.memRead c := by
  subst hrun
  have h4 : 4 ≤ s.widx := by simpa using h.1
  have hdec := decode_of_accepted h
  rw [frame_getD s 0 (by omega), frame_getD s 1 (by omega)] at hdec
  rw [timeout_of_decode hdec]
  exact serve_memRead_of_quiet (s := s.entered) hquiet _ c

theorem timeout_memRead_of_not_accepted {s : State} (h : ¬ accepted s.cfg s.frame) (c : Nat) :
    s.timeout.memRead c = s.memRead c := by
  cases hdec : decode s.cfg.slaveAddr s.frame with
  | error r => rw [timeout_of_reject hdec]; rfl
  | ok req => exact absurd ((decode_ok_iff_accepted s.cfg s.frame).1 ⟨req, hdec⟩) h

/-- An accepted frame with function 0x06 on a valid cell writes bytes 4 and 5 to it (R131). -/
theorem timeout_memRead_single {s : State} (hquiet : s.portbQuiet) (hacc : accepted s.cfg s.frame)
    (hfn : s.buf.read 1 = 0x06#8) (hlen : 8 ≤ s.widx)
    (hvalid : validRange s.cfg.blocks ((s.buf.read 2).toNat * 256 + (s.buf.read 3).toNat) 1 = true) :
    s.timeout.memRead ((s.buf.read 2).toNat * 256 + (s.buf.read 3).toNat) = be16 (s.buf.read 4) (s.buf.read 5) := by
  obtain ⟨-, hstore, -⟩ := (validRange_iff _ _ _).1 hvalid
  have hrun := grantedWrite_single_of_frame hlen (s.buf.read 0)
  rw [if_pos hvalid, ← hfn] at hrun
  rw [timeout_memRead_of_accepted hquiet hacc hrun, if_pos ⟨Nat.le_refl _, by simp, by omega⟩, Nat.sub_self]
  rfl

/-- An accepted frame with function 0x10 on a valid run writes value `i` to cell `a + i` (R132). -/
theorem timeout_memRead_multiple {s : State} (hquiet : s.portbQuiet) (hacc : accepted s.cfg s.frame)
    (hfn : s.buf.read 1 = 0x10#8) (hlen : s.widx = 9 + (s.buf.read 6).toNat)
    (hcount : (s.buf.read 6).toNat = 2 * ((s.buf.read 4).toNat * 256 + (s.buf.read 5).toNat))
    (hvalid : validRange s.cfg.blocks ((s.buf.read 2).toNat * 256 + (s.buf.read 3).toNat)
      ((s.buf.read 4).toNat * 256 + (s.buf.read 5).toNat) = true)
    {i : Nat} (hi : i < (s.buf.read 4).toNat * 256 + (s.buf.read 5).toNat) :
    s.timeout.memRead ((s.buf.read 2).toNat * 256 + (s.buf.read 3).toNat + i) =
      be16 (s.buf.read (7 + 2 * i)) (s.buf.read (8 + 2 * i)) := by
  obtain ⟨-, hstore, -⟩ := (validRange_iff _ _ _).1 hvalid
  have hrun := grantedWrite_multiple_of_frame hlen (s.buf.read 0)
  rw [if_pos ⟨hcount, hvalid⟩, ← hfn] at hrun
  have hwords : i < (wordsOf ((s.frame.drop 7).take (s.frame.length - 9))).length := by simp; omega
  rw [timeout_memRead_of_accepted hquiet hacc hrun, if_pos ⟨Nat.le_add_right _ _, by simpa using hwords, by omega⟩,
    Nat.add_sub_cancel_left, dataValue_of_frame s.frame i (by rw [frame_length]; omega), frame_getD s _ (by omega),
    frame_getD s _ (by omega)]

/-- A cell that ON_TIMEOUT changes with PORTB quiet is one that an accepted write request names in a valid range. -/
theorem asked_of_timeout_memRead_ne {s : State} (hquiet : s.portbQuiet) {c : Nat}
    (hne : s.timeout.memRead c ≠ s.memRead c) :
    let a := (s.buf.read 2).toNat * 256 + (s.buf.read 3).toNat
    let q := (s.buf.read 4).toNat * 256 + (s.buf.read 5).toNat
    accepted s.cfg s.frame ∧
      ((s.buf.read 1 = 0x06#8 ∧ 8 ≤ s.widx ∧ validRange s.cfg.blocks a 1 = true ∧ c = a) ∨
       (s.buf.read 1 = 0x10#8 ∧ s.widx = 9 + (s.buf.read 6).toNat ∧ (s.buf.read 6).toNat = 2 * q ∧
        validRange s.cfg.blocks a q = true ∧ a ≤ c ∧ c < a + q)) := by
  intro a q
  have hacc : accepted s.cfg s.frame := by_contra fun h => hne (timeout_memRead_of_not_accepted h c)
  have h4 : 4 ≤ s.widx := by simpa using hacc.1
  obtain ⟨hle, hlt, -⟩ := by_contra fun h => hne ((timeout_memRead_of_accepted hquiet hacc rfl c).trans (if_neg h))
  have hsome : (s.cfg.grantedWrite (parseRequest (s.buf.read 0) (s.buf.read 1) (payloadOf s.frame))).2 ≠ [] := by
    rw [← List.length_pos_iff]
    omega
  refine ⟨hacc, ?_⟩
  rcases length_of_grantedWrite h4 hsome with ⟨hfn, hlen⟩ | ⟨hfn, hlen⟩
  · rw [hfn, grantedWrite_single_of_frame hlen] at hle hlt hsome
    split at hsome
    · next hvalid =>
      rw [if_pos hvalid] at hle hlt
      exact .inl ⟨hfn, hlen, hvalid, Nat.le_antisymm (Nat.le_of_lt_succ hlt) hle⟩
    · exact absurd rfl hsome
  · rw [hfn, grantedWrite_multiple_of_frame hlen] at hle hlt hsome
    split at hsome
    · next hchecks =>
      obtain ⟨hcount, hvalid⟩ := hchecks
      rw [if_pos ⟨hcount, hvalid⟩] at hle hlt
      have hwords : (wordsOf ((s.frame.drop 7).take (s.frame.length - 9))).length = q := by simp; omega
      exact .inr ⟨hfn, hlen, hcount, hvalid, hle, hwords ▸ hlt⟩
    · exact absurd rfl hsome

/-- Settles O45: the granted run, read off the bytes of the buffer, and a changed cell is in it. -/
theorem timeoutWritesExactlyTheRequestedCells : Obligations.TimeoutWritesExactlyTheRequestedCells := by
  unfold Obligations.TimeoutWritesExactlyTheRequestedCells
  intro s hidle hquiet
  refine ⟨s.timeout, timeout_next hidle, fun c => ⟨?_, ?_, ?_⟩⟩
  · rintro hacc hfn hlen hstore hblock rfl
    exact timeout_memRead_single hquiet hacc hfn hlen ((validRange_iff _ _ _).2 ⟨Nat.le_refl 1, hstore, hblock⟩)
  · intro hacc hfn hlen hcount hstore hblock hle hlt
    obtain ⟨i, rfl⟩ := Nat.exists_eq_add_of_le hle
    have hi := Nat.lt_of_add_lt_add_left hlt
    rw [Nat.add_sub_cancel_left]
    exact timeout_memRead_multiple hquiet hacc hfn hlen hcount
      ((validRange_iff _ _ _).2 ⟨Nat.zero_lt_of_lt hi, hstore, hblock⟩) hi
  · intro hsingle hmultiple
    by_contra hne
    obtain ⟨hacc, ⟨hfn, hlen, hvalid, hc⟩ | ⟨hfn, hlen, hcount, hvalid, hle, hlt⟩⟩ := asked_of_timeout_memRead_ne hquiet hne
    · obtain ⟨-, hstore, hblock⟩ := (validRange_iff _ _ _).1 hvalid
      exact hsingle ⟨hacc, hfn, hlen, hstore, hblock, hc⟩
    · obtain ⟨-, hstore, hblock⟩ := (validRange_iff _ _ _).1 hvalid
      exact hmultiple ⟨hacc, hfn, hlen, hcount, hstore, hblock, hle, hlt⟩

end Sys2Proof.Machine
end
